-- ==== Sys2Proof/Word.lean ====
section
/-! DEFINITION. The word types: a byte (a register or a memory cell), the 16-bit instruction word (also the pointer's width), a nibble
and a register index. Rules R11, R16, R50, R57. -/

namespace Sys2Proof

/-- A register or a memory cell, 8 bits unsigned (R11, R24). -/
abbrev Byte := BitVec 8

/-- The 16-bit instruction word (R50), and IP_WIDTH = 16 bits of pointer (R4, R16). -/
abbrev Word := BitVec 16

/-- A 4-bit field of the instruction word (R51). -/
abbrev Nibble := BitVec 4

/-- A register index 0 to 15, which is a nibble used unsigned and unscaled (R57). -/
abbrev RegIx := BitVec 4

end Sys2Proof
end

