-- ==== Sys2Proof/Config.lean ====
section
/-! DEFINITION. The parameters of the core: the fixed values of rule R4, and the three parameters the spec leaves to the
one who takes the core, EXT_ALU (R4, R101) and its OPEN sub-parameters SUB_FLAG and LOGIC_FLAG (R106). -/

namespace Sys2Proof

/-- MEM_SIZE (R4, R30). -/
def Config.memSize : Nat := 4096

/-- The highest pointer value at which a fetch is in bounds (R37). -/
def Config.lastFetch : Nat := 4094

/-- FLAG_REG, the index of the carry/overflow flag register (R4, R12). -/
abbrev Config.flagReg : RegIx := 15

/-- IP_INCR, the pointer's advance per fetch (R4, R17). -/
abbrev Config.ipIncr : Word := 2

/-- IP_RESET (R4, R26). -/
abbrev Config.ipReset : Word := 0

/-- SUB_FLAG of rule R106: what SUB leaves in the flag register. -/
inductive SubFlag where
  /-- 1 iff there is no borrow -/
  | notBorrow
  /-- 1 iff there is a borrow -/
  | borrow
deriving DecidableEq, Repr, Inhabited

/-- LOGIC_FLAG of rule R106: whether OR, AND, XOR leave the flag register alone or clear it. -/
inductive LogicFlag where
  | unchanged
  | cleared
deriving DecidableEq, Repr, Inhabited

/-- The parameters a run is taken under; no step changes them (R4: they are not state of the core). The spec wants the
open ones as arguments of the model (R106), and the model's arguments stand in the state. -/
structure Params where
  /-- EXT_ALU: are the four rows OR, AND, XOR, SUB in force? (R101) -/
  extAlu : Bool
  /-- SUB_FLAG (R106) -/
  subFlag : SubFlag
  /-- LOGIC_FLAG (R106) -/
  logicFlag : LogicFlag
deriving DecidableEq, Repr

/-- DESIGN CHOICE, safe (log entry 2): SUB_FLAG is OPEN and has no default (R106, D19), so the value the reset state carries
is a constant about which Lean can prove nothing. -/
opaque Config.subFlag : SubFlag

/-- DESIGN CHOICE, safe (log entry 2): as `Config.subFlag`, for LOGIC_FLAG. -/
opaque Config.logicFlag : LogicFlag

/-- The parameters of the base machine: EXT_ALU = false, the default of rule R4 (log entry 1). -/
def Config.base : Params := { extAlu := false, subFlag := Config.subFlag, logicFlag := Config.logicFlag }

end Sys2Proof
end

