-- ==== Sys2Proof/Syntax.lean ====
section
/-! DEFINITION. The instructions, one constructor per row of spec/opcode_table.json (R97): HALT and ADD of the base machine, and
the four rows of the optional profile EXT_ALU (R101). -/

namespace Sys2Proof

/-- The closed enumeration of rule R97. `x` is the first register operand and the destination, `y` the second (R57, R60). -/
inductive Instr where
  /-- HALT, word 0x0000 (R74) -/
  | halt
  /-- ADD rX, rY, word 0x8XY4 (R85) -/
  | add (x y : RegIx)
  /-- OR rX, rY, word 0x8XY1, EXT_ALU only (R102) -/
  | or (x y : RegIx)
  /-- AND rX, rY, word 0x8XY2, EXT_ALU only (R103) -/
  | and (x y : RegIx)
  /-- XOR rX, rY, word 0x8XY3, EXT_ALU only (R104) -/
  | xor (x y : RegIx)
  /-- SUB rX, rY, word 0x8XY5, EXT_ALU only (R105) -/
  | sub (x y : RegIx)
deriving DecidableEq, Repr

end Sys2Proof
end

