-- ==== Sys2Proof/WellFormed.lean ====
section
/-! DEFINITION. Which instructions a profile has. A register operand needs no check: every 4-bit index is valid (R55, R57). The one
check is the profile's: OR, AND, XOR, SUB are instructions only when EXT_ALU is true (R63, R101). -/

namespace Sys2Proof

/-- Is the instruction a row of the profile EXT_ALU? (the column "profile" of R63) -/
def Instr.isExtAlu : Instr → Bool
  | .halt => false
  | .add _ _ => false
  | .or _ _ => true
  | .and _ _ => true
  | .xor _ _ => true
  | .sub _ _ => true

/-- Well-formed in the profile whose EXT_ALU is `ext`: a row in force (R63, R101). -/
def Instr.wellFormed (ext : Bool) (i : Instr) : Bool := !i.isExtAlu || ext

end Sys2Proof
end

