-- ==== Sys2Proof/Decode.lean ====
section
/-! DEFINITION. Field extraction, the decoder and the encoder (30_encoding.md, R50 to R56, R62, R101), and the bytes of a word
(R34). The decoder rejects by name: an unrecognized opcode, or fewer than two bytes. -/

namespace Sys2Proof

/-- The four nibbles of a word, from most to least significant (R51). -/
structure Nibbles where
  c : Nibble
  x : Nibble
  y : Nibble
  d : Nibble
deriving DecidableEq, Repr

/-- `Decode(w)` of rule R52: w[15:12], w[11:8], w[7:4], w[3:0]. -/
def Nibbles.split (w : Word) : Nibbles :=
  { c := w.extractLsb' 12 4, x := w.extractLsb' 8 4, y := w.extractLsb' 4 4, d := w.extractLsb' 0 4 }

/-- `w = c ++ x ++ y ++ d` (R52). -/
def Nibbles.join (n : Nibbles) : Word := n.c ++ n.x ++ n.y ++ n.d

/-- What the decoder reads from one word: an instruction, or the word rejected (R53, R56, R97). -/
inductive Decoded where
  | instr (i : Instr)
  /-- no row in force matches the word (R56) -/
  | unrecognized (w : Word)
deriving DecidableEq, Repr

/-- Dispatch over the 4-tuple as rule R70 orders its arms, with the four arms of rule R101 before the last when `ext` holds.
Total on all 65536 words (R53, R97). -/
def decode (ext : Bool) (w : Word) : Decoded :=
  let n := Nibbles.split w
  if n.c = 0 ∧ n.x = 0 ∧ n.y = 0 ∧ n.d = 0 then .instr .halt
  else if n.c = 8 ∧ n.d = 4 then .instr (.add n.x n.y)
  else if ext = true ∧ n.c = 8 ∧ n.d = 1 then .instr (.or n.x n.y)
  else if ext = true ∧ n.c = 8 ∧ n.d = 2 then .instr (.and n.x n.y)
  else if ext = true ∧ n.c = 8 ∧ n.d = 3 then .instr (.xor n.x n.y)
  else if ext = true ∧ n.c = 8 ∧ n.d = 5 then .instr (.sub n.x n.y)
  else .unrecognized w

/-- The word of an instruction, from the opcode map (R54, R55, R62, R101). -/
def encode : Instr → Word
  | .halt => Nibbles.join ⟨0, 0, 0, 0⟩
  | .add x y => Nibbles.join ⟨8, x, y, 4⟩
  | .or x y => Nibbles.join ⟨8, x, y, 1⟩
  | .and x y => Nibbles.join ⟨8, x, y, 2⟩
  | .xor x y => Nibbles.join ⟨8, x, y, 3⟩
  | .sub x y => Nibbles.join ⟨8, x, y, 5⟩

/-- The word of two bytes, the one at the lower address more significant (R34). -/
def wordOfBytes (hi lo : Byte) : Word := hi ++ lo

/-- The more significant byte, stored at the lower address (R34, R152). -/
def Word.hiByte (w : Word) : Byte := w.extractLsb' 8 8

/-- The less significant byte, stored at the higher address (R34, R152). -/
def Word.loByte (w : Word) : Byte := w.extractLsb' 0 8

/-- What the decoder reads from a list of bytes, lowest address first. -/
inductive BytesDecoded where
  | decoded (d : Decoded) (rest : List Byte)
  /-- fewer than the two bytes of an instruction (R50) -/
  | truncated (bytes : List Byte)
deriving DecidableEq, Repr

/-- Decode the first instruction of a list of bytes (R50: always two bytes). -/
def decodeBytes (ext : Bool) : List Byte → BytesDecoded
  | hi :: lo :: rest => .decoded (decode ext (wordOfBytes hi lo)) rest
  | bytes => .truncated bytes

/-- The instruction word that opcode_table.json numbers `w` with `nbits` bits: bit 0 is its least significant bit, and every
bit from `nbits` up is 0. -/
def tableWord (nbits w : Nat) : Word := BitVec.ofNat 16 (w % 2 ^ nbits)

/-- The instruction the decoder reads from a row of opcode_table.json. All six rows are in the table, so the decoder is that of
EXT_ALU = true, which decodes the two BASE rows alike (R101). More than 16 bits are no instruction (R50). -/
def decodeTableWord (nbits w : Nat) : Option Instr :=
  if nbits ≤ 16 then
    match decodeBytes true [(tableWord nbits w).hiByte, (tableWord nbits w).loByte] with
    | .decoded (.instr i) _ => some i
    | .decoded (.unrecognized _) _ => none
    | .truncated _ => none
  else none

end Sys2Proof
end

