-- ==== Sys2Proof/Machine/State.lean ====
section
/-! DEFINITION. The state of one core (R10), the reset state (R26), and the reasons for which an operation of the model stops. -/

namespace Sys2Proof.Machine

/-- The run status (R19). -/
inductive Status where
  | running
  | halted
  | faulted
deriving DecidableEq, Repr

/-- The cause in the fault record (R20, R22, R120). -/
inductive FaultCause where
  /-- no fault recorded, code 0 -/
  | none
  /-- code 1 (R121) -/
  | fetchOutOfBounds
  /-- code 2 (R122) -/
  | unrecognizedOpcode
  /-- code 3 (R123): no step records it -/
  | registerIndexOutOfRange
deriving DecidableEq, Repr

/-- The fault record (R20): the cause, the address the instruction was or would have been fetched from, and its word. -/
structure FaultRecord where
  cause : FaultCause
  addr : Word
  word : Word
deriving DecidableEq, Repr

/-- The record after Reset (R26): cause none, address 0, word 0. -/
def FaultRecord.empty : FaultRecord := { cause := .none, addr := 0, word := 0 }

/-- Memory: the bytes that differ from what an unlisted address reads as, by strictly rising address (R24, R30). -/
abbrev Memory := List Host.Cell

/-- What an address of memory that is not listed reads as: memory is "zero-initialized at startup" (R24, R26). -/
def Memory.unlisted : Byte := 0

/-- The canonical form from address `lo` up: addresses rise strictly, stay below 4096, and no entry equals what an unlisted
address reads as. -/
def Memory.wfFrom : Nat → Memory → Bool
  | _, [] => true
  | lo, (a, v) :: m => decide (lo ≤ a) && decide (a < Config.memSize) && decide (v ≠ Memory.unlisted) && Memory.wfFrom (a + 1) m

/-- The canonical form of memory. -/
def Memory.wf (m : Memory) : Bool := Memory.wfFrom 0 m

/-- The state of one core: the tuple (x, mem, ip, status, fault) of rule R10, and the parameters it is run under. -/
structure State where
  /-- x[0] .. x[15]; x[15] is the carry/overflow flag (R11, R12) -/
  regs : Vector Byte 16
  /-- mem[0] .. mem[4095] (R24) -/
  mem : Memory
  /-- the instruction pointer (R16) -/
  ip : Word
  /-- the run status (R19) -/
  status : Status
  /-- the fault record (R20) -/
  fault : FaultRecord
  /-- the model's own field: the parameters EXT_ALU, SUB_FLAG, LOGIC_FLAG (R4, R106; log entries 1 and 2) -/
  params : Params
deriving DecidableEq, Repr

/-- The state Reset leaves under given parameters: the table of rule R26. -/
def State.resetUnder (p : Params) : State :=
  { regs := Vector.replicate 16 0, mem := [], ip := Config.ipReset, status := .running, fault := FaultRecord.empty, params := p }

/-- The machine right after reset (R26, R150), the base machine (R4, R100). -/
def State.reset : State := State.resetUnder Config.base

/-- Why an operation of the model stops. No step and no transaction of the host answers a fault: the two fatal conditions of the
core are taken as the spec describes (R126) and give a NEXT state whose status is FAULTED. -/
inductive Fault where
  /-- Raised by `memRead` and `memWrite` when the bytes are not all at addresses 0 to 4095 (R32, R33, R138). Safe: the
  fetch and the host check their addresses first, so no step and no transaction reaches it. -/
  | memoryIndexOutOfRange (addr : Nat)
deriving DecidableEq, Repr

/-- Why a request has no meaning. -/
inductive Refusal where
  /-- Raised by an arm of `exec` whose instruction has no meaning yet; no arm is left so. Safe. -/
  | notModelled (mnemonic : String)
  /-- Raised by the host's transactions when the host writes memory, a register or the pointer after the first Step
  (R28, R155, U6). Safe: the spec gives the host no such move. -/
  | hostWriteDuringRun
  /-- Raised by the host's transactions for an address outside 0 to 4095 (R138: refused, not wrapped). Safe. -/
  | hostAddressOutOfRange (addr : Nat)
  /-- Raised by the host's transactions for a register index outside 0 to 15 (R6, R138). Safe. -/
  | hostRegisterOutOfRange (index : Nat)
  /-- Raised by `transactAt` for a core that is not there (R29). Safe. -/
  | noSuchCore (index : Nat)
deriving DecidableEq, Repr

end Sys2Proof.Machine
end

