-- ==== Sys2Proof/Machine/Ops.lean ====
section
/-! DEFINITION. The named operations over the state: registers, memory, the instruction fetch, the pointer's advance, HALT's signal,
taking a fault (one shared operation, R126) and Reset, which is the only way back from one (R128, R150). -/

namespace Sys2Proof.Machine

/-! Registers (R11 to R14). No register is hardwired, read-only or write-only. -/

theorem regIx_lt (i : RegIx) : i.toNat < 16 := i.isLt

/-- Read register `i` (`x[i]`). -/
def State.reg (s : State) (i : RegIx) : Byte := s.regs[i.toNat]'(regIx_lt i)

/-- Write register `i` (`x[i] <- v`). -/
def State.setReg (s : State) (i : RegIx) (v : Byte) : State := { s with regs := s.regs.set i.toNat v (regIx_lt i) }

/-! Memory (20_memory.md). -/

/-- The byte at an address: the listed one, else what an unlisted address reads as (R24, R26, R39: no side effect). -/
def Memory.byteAt : Memory → Nat → Byte
  | [], _ => Memory.unlisted
  | (b, v) :: m, a => if b = a then v else Memory.byteAt m a

/-- Store one byte, keeping the canonical form: storing what an unlisted address reads as removes the entry. -/
def Memory.store : Memory → Nat → Byte → Memory
  | [], a, v => if v = Memory.unlisted then [] else [(a, v)]
  | (b, u) :: m, a, v =>
    if a < b then (if v = Memory.unlisted then (b, u) :: m else (a, v) :: (b, u) :: m)
    else if a = b then (if v = Memory.unlisted then m else (a, v) :: m)
    else (b, u) :: Memory.store m a v

/-- Store bytes at consecutive addresses, the first at the lowest. -/
def Memory.storeAll : Memory → Nat → List Byte → Memory
  | m, _, [] => m
  | m, a, v :: vs => Memory.storeAll (Memory.store m a v) (a + 1) vs

/-- `MemRead(a, n)`: the bytes in address order; defined only inside 0 to 4095, never a wrap (R32). -/
def memRead (m : Memory) (a n : Nat) : Except Fault (List Byte) :=
  if a + n ≤ Config.memSize then .ok ((List.range n).map fun k => Memory.byteAt m (a + k))
  else .error (.memoryIndexOutOfRange a)

/-- `MemWrite(a, n, v)` with the bytes of `v` in address order; same bounds (R33). -/
def memWrite (m : Memory) (a : Nat) (bytes : List Byte) : Except Fault Memory :=
  if a + bytes.length ≤ Config.memSize then .ok (Memory.storeAll m a bytes)
  else .error (.memoryIndexOutOfRange a)

/-! The instruction-fetch unit (R34, R37, R72). -/

/-- What the fetch unit answers: the word, or the pointer that is out of bounds. -/
inductive Fetched where
  | word (w : Word)
  | outOfBounds (a : Word)
deriving DecidableEq, Repr

/-- `read_instruction(memory, pointer)`: a pure function of memory and pointer. The bounds check is on the whole pointer value,
before either byte is read, and computes no sum in the pointer's width (R37). -/
def readInstruction (m : Memory) (p : Word) : Fetched :=
  if p.toNat > Config.lastFetch then .outOfBounds p
  else .word (wordOfBytes (Memory.byteAt m p.toNat) (Memory.byteAt m (p.toNat + 1)))

/-! The pointer and the status. -/

/-- The advance, after a successful fetch and before dispatch (R17, R73). -/
def State.advance (s : State) : State := { s with ip := s.ip + Config.ipIncr }

/-- HALT's signal to the loop (R74). -/
def State.halt (s : State) : State := { s with status := .halted }

/-! Taking a fault (R126): the record is written, the status becomes FAULTED, all else keeps its value. There is no handler,
no vector and no return but Reset (R128). -/

/-- `raise <Fault>(info)`. -/
def State.raise (s : State) (cause : FaultCause) (addr word : Word) : State :=
  { s with status := .faulted, fault := { cause := cause, addr := addr, word := word } }

/-- FetchOutOfBounds (R121): raised before the advance, so the pointer is the offending address; no word was fetched. -/
def State.raiseFetchOutOfBounds (s : State) (a : Word) : State := s.raise .fetchOutOfBounds a 0

/-- UnrecognizedOpcode (R122), raised after the advance: `a` is the address the word was fetched from. -/
def State.raiseUnrecognized (s : State) (a w : Word) : State := s.raise .unrecognizedOpcode a w

/-- RegisterIndexOutOfRange (R123), raised inside a handler: the pointer has been advanced past the instruction, whose address
and word are recorded. -/
def State.raiseRegIndex (s : State) : State :=
  let a := s.ip - Config.ipIncr
  match readInstruction s.mem a with
  | .word w => s.raise .registerIndexOutOfRange a w
  | .outOfBounds _ => s.raise .registerIndexOutOfRange a 0

/-- A raw number as a register index; a number that is none is never wrapped (R98, R123). -/
def regIndex (n : Nat) : Option RegIx := if n < 16 then some (BitVec.ofNat 4 n) else none

/-- The contract of an extension's handler whose index is not a 4-bit field: in range it runs, else it is the fatal
RegisterIndexOutOfRange (R98, R123). No instruction of either profile needs it. -/
def State.withRegIndex (s : State) (n : Nat) (handler : RegIx → State → State) : State :=
  match regIndex n with
  | some i => handler i s
  | none => s.raiseRegIndex

/-- Reset, legal in any state and the only exit from HALTED and FAULTED (R128, R150): every piece of state at its reset value.
The parameters are no state and stay. -/
def State.hostReset (s : State) : State := State.resetUnder s.params

/-! Placing an instruction where the next step fetches. -/

/-- Store a word at the pointer, big-endian (R34, R152), if it can be fetched there. -/
def State.placeWord (s : State) (w : Word) : State :=
  if s.ip.toNat ≤ Config.lastFetch then { s with mem := Memory.storeAll s.mem s.ip.toNat [w.hiByte, w.loByte] } else s

/-- Put the profile that has the word's row in force: EXT_ALU becomes true if the word is an instruction only there (R101). -/
def State.selectProfile (s : State) (w : Word) : State :=
  match decode s.params.extAlu w, decode true w with
  | .unrecognized _, .instr _ => { s with params := { s.params with extAlu := true } }
  | _, _ => s

/-! The host's numeric view (R22). -/

/-- 0 RUNNING, 1 HALTED, 2 FAULTED (R22). -/
def Status.code : Status → BitVec 2
  | .running => 0
  | .halted => 1
  | .faulted => 2

/-- 0 none, 1 to 3 as rule R120 numbers them (R22). -/
def FaultCause.code : FaultCause → BitVec 2
  | .none => 0
  | .fetchOutOfBounds => 1
  | .unrecognizedOpcode => 2
  | .registerIndexOutOfRange => 3

end Sys2Proof.Machine
end

