-- ==== Sys2Proof/Machine/Operands.lean ====
section
/-! DEFINITION. The one operand form, a pair of register indices (R57), read before any write (R85, R107), and the write of a result
to the first of them. -/

namespace Sys2Proof.Machine

/-- The values of the two source registers. -/
structure Operands where
  a : Byte
  b : Byte
deriving DecidableEq, Repr

/-- `a <- x[X]; b <- x[Y]`, both read before any write. -/
def State.operands (s : State) (x y : RegIx) : Operands := { a := s.reg x, b := s.reg y }

/-- The result goes to the first operand's register, an in-place accumulate (R85, R107). -/
def State.writeResult (s : State) (x : RegIx) (v : Byte) : State := s.setReg x v

end Sys2Proof.Machine
end

