-- ==== Sys2Proof/Machine/Flags.lean ====
section
/-! DEFINITION. The carry/overflow flag in register 15 (R12, R15): the sums and differences are computed exactly in the integers, and
the flag compares the exact result with the 8-bit range (R86). The flag write is the last write of a handler (R88, R107). -/

namespace Sys2Proof.Machine

/-- The flag's byte: exactly 0x00 or 0x01 (R87). -/
def flagByte (b : Bool) : Byte := if b then 1 else 0

/-- The mathematical sum of the operands, 0 to 510 (R85). -/
def Operands.sum (o : Operands) : Nat := o.a.toNat + o.b.toNat

/-- The unsigned carry out: the sum exceeds 255 (R85, R86). -/
def Operands.carry (o : Operands) : Bool := decide (o.sum > 255)

/-- The unsigned borrow: the minuend is less than the subtrahend (R105). -/
def Operands.borrow (o : Operands) : Bool := decide (o.a.toNat < o.b.toNat)

/-- SUB's flag under SUB_FLAG (R105, R106). -/
def Operands.subFlag (p : SubFlag) (o : Operands) : Bool :=
  match p with
  | .borrow => o.borrow
  | .notBorrow => !o.borrow

/-- Write the flag register. -/
def State.writeFlag (s : State) (b : Bool) : State := s.setReg Config.flagReg (flagByte b)

/-- The flag after OR, AND, XOR under LOGIC_FLAG: left alone or cleared (R102, R106). Only the registers depend on it. -/
def State.writeLogicFlag (s : State) (p : LogicFlag) : State :=
  { s with regs := match p with
                   | .unchanged => s.regs
                   | .cleared => (s.writeFlag false).regs }

/-- The shape the three logic handlers share: read both operands, write the result, then the flag (R102 to R104, R107). -/
def State.logicOp (s : State) (f : Byte → Byte → Byte) (x y : RegIx) : State :=
  let o := s.operands x y
  (s.writeResult x (f o.a o.b)).writeLogicFlag s.params.logicFlag

end Sys2Proof.Machine
end

