-- ==== Sys2Proof/Machine/Arithmetic.lean ====
section
/-! DEFINITION. The arithmetic handlers: ADD of the base machine (41_arithmetic.md) and SUB of EXT_ALU (R105). A handler runs after
the pointer's advance and never touches it (R73, R96). -/

namespace Sys2Proof.Machine

/-- ADD rX, rY (R85): the sum modulo 256 into x[X], then the carry into x[15]. -/
def execAdd (x y : RegIx) (s : State) : Host.Outcome State Fault Refusal :=
  let o := s.operands x y
  .next ((s.writeResult x (BitVec.ofNat 8 o.sum)).writeFlag o.carry)

/-- SUB rX, rY (R105): the difference modulo 256, computed as (a + 256 - b) mod 256, into x[X], then the flag of SUB_FLAG into
x[15]. PRESUMED by the spec itself: "[from general knowledge, not in source]" (log entry 3). -/
def execSub (x y : RegIx) (s : State) : Host.Outcome State Fault Refusal :=
  let o := s.operands x y
  .next ((s.writeResult x (BitVec.ofNat 8 (o.a.toNat + 256 - o.b.toNat))).writeFlag (o.subFlag s.params.subFlag))

end Sys2Proof.Machine
end

