-- ==== Sys2Proof/Machine/Logic.lean ====
section
/-! DEFINITION. The logic handlers of EXT_ALU (R102 to R104). PRESUMED by the spec itself: "[from general knowledge, not in
source]" (log entry 3). -/

namespace Sys2Proof.Machine

/-- OR rX, rY (R102). -/
def execOr (x y : RegIx) (s : State) : Host.Outcome State Fault Refusal := .next (s.logicOp (fun a b => a ||| b) x y)

/-- AND rX, rY (R103). -/
def execAnd (x y : RegIx) (s : State) : Host.Outcome State Fault Refusal := .next (s.logicOp (fun a b => a &&& b) x y)

/-- XOR rX, rY (R104). -/
def execXor (x y : RegIx) (s : State) : Host.Outcome State Fault Refusal := .next (s.logicOp (fun a b => a ^^^ b) x y)

end Sys2Proof.Machine
end

