-- ==== Sys2Proof/Machine/System.lean ====
section
/-! DEFINITION. HALT, the only system instruction (R74, R80). -/

namespace Sys2Proof.Machine

/-- HALT (R74): the status becomes HALTED; no register, no memory. -/
def execHalt (s : State) : Host.Outcome State Fault Refusal := .next s.halt

end Sys2Proof.Machine
end

