-- ==== Sys2Proof/Machine/Cycle.lean ====
section
/-! DEFINITION. One pass of the execution loop (R70): fetch, advance, decode, dispatch, in this order; and what a step from a
terminal state does (R75). -/

namespace Sys2Proof.Machine

/-- Decode and dispatch of the word `w` fetched at `a`, in the state after the advance (R53, R70 phases 3 and 4). -/
def dispatchWord (s : State) (a w : Word) : Host.Outcome State Fault Refusal :=
  match decode s.params.extAlu w with
  | .instr i => exec i s
  | .unrecognized w => .next (s.raiseUnrecognized a w)

/-- A step of a RUNNING core (R70). -/
def runningStep (s : State) : Host.Outcome State Fault Refusal :=
  match readInstruction s.mem s.ip with
  | .outOfBounds a => .next (s.raiseFetchOutOfBounds a)
  | .word w => dispatchWord s.advance s.ip w

/-- A step in any state: from HALTED and FAULTED nothing changes (R75, conflict C12). -/
def cycle (s : State) : Host.Outcome State Fault Refusal :=
  match s.status with
  | .running => runningStep s
  | .halted => .next s
  | .faulted => .next s

end Sys2Proof.Machine
end

