-- ==== Sys2Proof/Machine/Step.lean ====
section
/-! DEFINITION. The step of the machine (R70, R75), and an instruction placed where the next step fetches it. -/

namespace Sys2Proof.Machine

/-- One Step transaction (R6, R70). -/
def step : State → Host.Outcome State Fault Refusal := cycle

/-- The state with the instruction that opcode_table.json numbers `w` stored, big-endian, where step fetches next, and with the
profile that has its row in force (log entries 1 and 4). -/
def State.withFetchWord (s : State) (nbits w : Nat) : State :=
  (s.placeWord (tableWord nbits w)).selectProfile (tableWord nbits w)

end Sys2Proof.Machine
end

