-- ==== Sys2Proof/Machine/Run.lean ====
section
/-! DEFINITION. The Run transaction (R71): step while the status is RUNNING. Fuel is the runner's, not the machine's (R76). -/

namespace Sys2Proof.Machine

/-- Step while RUNNING, at most `fuel` times; out of fuel the state is simply still RUNNING (R76). -/
def runFor : Nat → State → Host.Outcome State Fault Refusal
  | 0, s => .next s
  | k + 1, s =>
    match s.status with
    | .running =>
      match step s with
      | .next t => runFor k t
      | .fault r => .fault r
      | .refused r => .refused r
    | .halted => .next s
    | .faulted => .next s

/-- The most steps a run from pointer value `ip` takes (R71). -/
def runBound (ip : Word) : Nat := if ip.toNat ≤ 4094 then (4094 - ip.toNat) / 2 + 2 else 1

/-- `Run(S)`: every run ends within the bound, so that much fuel is the whole run (R71). -/
def run (s : State) : Host.Outcome State Fault Refusal := runFor (runBound s.ip) s

end Sys2Proof.Machine
end

