-- ==== Sys2Proof/Machine/HostPort.lean ====
section
/-! DEFINITION. The host's side of the boundary: the transactions of rule R6, when each is legal (R28, R155), and the boot sequence
(R152). A session is a core together with whether its first Step since Reset has been taken. -/

namespace Sys2Proof.Machine

/-- One core and the host's knowledge of it (R28: the phase between Reset and the first Step). -/
structure Session where
  core : State
  started : Bool
deriving DecidableEq, Repr

/-- The transactions from host to core (R6). -/
inductive Transaction where
  | reset
  | writeMem (a : Nat) (v : Byte)
  | writeReg (i : Nat) (v : Byte)
  | setIp (v : Word)
  | step
  | run
deriving DecidableEq, Repr

/-- A session right after Reset of a core with the given parameters. -/
def Session.fresh (p : Params) : Session := { core := State.resetUnder p, started := false }

/-- A host write, legal only before the first Step (R28); `f` is the write. -/
def Session.hostWrite (s : Session) (f : State → Host.Outcome State Fault Refusal) : Host.Outcome Session Fault Refusal :=
  if s.started then .refused .hostWriteDuringRun
  else
    match f s.core with
    | .next t => .next { s with core := t }
    | .fault r => .fault r
    | .refused r => .refused r

/-- Step or Run: from here on the run has started. -/
def Session.take (s : Session) (f : State → Host.Outcome State Fault Refusal) : Host.Outcome Session Fault Refusal :=
  match f s.core with
  | .next t => .next { core := t, started := true }
  | .fault r => .fault r
  | .refused r => .refused r

/-- HostWriteMem(a, v) = MemWrite(a, 1, v) (R6, R33); an address outside 0 to 4095 is refused, not wrapped (R138). -/
def hostWriteMem (a : Nat) (v : Byte) (s : State) : Host.Outcome State Fault Refusal :=
  if a < Config.memSize then
    match memWrite s.mem a [v] with
    | .ok m => .next { s with mem := m }
    | .error r => .fault r
  else .refused (.hostAddressOutOfRange a)

/-- HostWriteReg(i, v) (R6, R28): any register, register 15 too. -/
def hostWriteReg (i : Nat) (v : Byte) (s : State) : Host.Outcome State Fault Refusal :=
  match regIndex i with
  | some r => .next (s.setReg r v)
  | none => .refused (.hostRegisterOutOfRange i)

/-- HostSetIP(v) (R6, R28): any value of the pointer's width. -/
def hostSetIp (v : Word) (s : State) : Host.Outcome State Fault Refusal := .next { s with ip := v }

/-- What each transaction does (R6). -/
def transact (t : Transaction) (s : Session) : Host.Outcome Session Fault Refusal :=
  match t with
  | .reset => .next { core := s.core.hostReset, started := false }
  | .writeMem a v => s.hostWrite (hostWriteMem a v)
  | .writeReg i v => s.hostWrite (hostWriteReg i v)
  | .setIp v => s.hostWrite (hostSetIp v)
  | .step => s.take Sys2Proof.Machine.step
  | .run => s.take Sys2Proof.Machine.run

/-- Transactions one after the other, stopping at the first that is refused. -/
def transactAll : List Transaction → Session → Host.Outcome Session Fault Refusal
  | [], s => .next s
  | t :: ts, s =>
    match transact t s with
    | .next s' => transactAll ts s'
    | .fault r => .fault r
    | .refused r => .refused r

/-! Reads, from core to host: pure, at any cycle boundary (R6, R28, R39). -/

/-- HostReadReg(i). -/
def hostReadReg (i : Nat) (s : State) : Except Refusal Byte :=
  match regIndex i with
  | some r => .ok (s.reg r)
  | none => .error (.hostRegisterOutOfRange i)

/-- HostReadMem(a). -/
def hostReadMem (a : Nat) (s : State) : Except Refusal Byte :=
  if a < Config.memSize then .ok (Memory.byteAt s.mem a) else .error (.hostAddressOutOfRange a)

/-- HostReadIP. -/
def hostReadIp (s : State) : Word := s.ip

/-- HostReadStatus: the status and the fault record (R22, R136). -/
def hostReadStatus (s : State) : Status × FaultRecord := (s.status, s.fault)

/-! Boot (R152). -/

/-- Load words at consecutive instruction addresses from `a`: for each word its high byte, then its low byte. -/
def loadMoves : Nat → List Word → List Transaction
  | _, [] => []
  | a, w :: ws => .writeMem a w.hiByte :: .writeMem (a + 1) w.loByte :: loadMoves (a + 2) ws

/-- Preload registers, each with its index (R152 step 4). -/
def preloadMoves (regs : List (Nat × Byte)) : List Transaction := regs.map fun r => .writeReg r.1 r.2

/-- The boot sequence up to the first Step: Reset, load, set the pointer, preload. -/
def bootMoves (a : Nat) (ws : List Word) (ip : Word) (regs : List (Nat × Byte)) : List Transaction :=
  .reset :: loadMoves a ws ++ .setIp ip :: preloadMoves regs

end Sys2Proof.Machine
end

