-- ==== Sys2Proof/Machine/Instances.lean ====
section
/-! DEFINITION. Several cores side by side, each with its own state (R29, R47, R135): a transaction names the core it goes to. -/

namespace Sys2Proof.Machine

/-- A transaction with core number `i` of a list of sessions. -/
def transactAt (i : Nat) (t : Transaction) (cores : List Session) : Host.Outcome (List Session) Fault Refusal :=
  match cores[i]? with
  | none => .refused (.noSuchCore i)
  | some s =>
    match transact t s with
    | .next s' => .next (cores.set i s')
    | .fault r => .fault r
    | .refused r => .refused r

end Sys2Proof.Machine
end

