-- ==== Sys2Proof/Machine/Listing.lean ====
section
/-! DEFINITION. The listing syntax of rule R60 as data: an instruction, a literal word, and the placement directive `.org`. -/

namespace Sys2Proof.Machine

/-- One line of a listing (R60). -/
inductive Line where
  | instr (i : Instr)
  /-- `.word 0xNNNN` -/
  | word (w : Word)
  /-- `.org A` -/
  | org (a : Nat)
deriving DecidableEq, Repr

/-- The words a listing places, each with its byte address, from address `a` on; instructions stand 2 bytes apart (R50). -/
def placeLines : Nat → List Line → List (Nat × Word)
  | _, [] => []
  | a, .instr i :: ls => (a, encode i) :: placeLines (a + 2) ls
  | a, .word w :: ls => (a, w) :: placeLines (a + 2) ls
  | _, .org b :: ls => placeLines b ls

/-- The host's writes that load a listing placed from address 0 (R152). -/
def listingMoves (ls : List Line) : List Transaction := (placeLines 0 ls).flatMap fun p => loadMoves p.1 [p.2]

/-- A register's name, `r0` to `rF` (R60). -/
def regName (i : RegIx) : String :=
  ["r0", "r1", "r2", "r3", "r4", "r5", "r6", "r7", "r8", "r9", "rA", "rB", "rC", "rD", "rE", "rF"].getD i.toNat "r0"

/-- An instruction's text, destination first (R60, and the syntax of the EXT_ALU rows in opcode_table.json). -/
def instrText : Instr → String
  | .halt => "HALT"
  | .add x y => "ADD " ++ regName x ++ ", " ++ regName y
  | .or x y => "OR " ++ regName x ++ ", " ++ regName y
  | .and x y => "AND " ++ regName x ++ ", " ++ regName y
  | .xor x y => "XOR " ++ regName x ++ ", " ++ regName y
  | .sub x y => "SUB " ++ regName x ++ ", " ++ regName y

end Sys2Proof.Machine
end

