-- ==== Sys2Proof/Safety.lean ====
section
/-! DEFINITION. The terms claims are stated in: the end of a run (R159), the launch premises (R161), the consistency of a state, and
what it means for two states to agree outside named registers. -/

namespace Sys2Proof.Machine

/-- The run has ended: the status is not RUNNING (R159). -/
def State.Ended (s : State) : Prop := s.status ≠ .running

/-- The run has ended successfully: HALTED, never FAULTED (R129, R159). -/
def State.EndedSuccessfully (s : State) : Prop := s.status = .halted

/-! The launch premises (R161). LP_NOTHING_IN_FLIGHT holds of every state and LP_HOST_QUIET is what `transact` refuses. -/

/-- LP_RUNNING -/
def State.LpRunning (s : State) : Prop := s.status = .running

/-- LP_NO_FAULT -/
def State.LpNoFault (s : State) : Prop := s.fault.cause = .none

/-- LP_IMAGE(A, words) -/
def State.LpImage (s : State) (a : Nat) (ws : List Word) : Prop :=
  ∀ (k : Nat) (w : Word), ws[k]? = some w →
    Memory.byteAt s.mem (a + 2 * k) = w.hiByte ∧ Memory.byteAt s.mem (a + 2 * k + 1) = w.loByte

/-- LP_ZERO_ELSEWHERE: every byte outside the image of `n` words at `a` is 0. -/
def State.LpZeroElsewhere (s : State) (a n : Nat) : Prop :=
  ∀ b : Nat, b < a ∨ a + 2 * n ≤ b → Memory.byteAt s.mem b = 0

/-- LP_IP(A) -/
def State.LpIp (s : State) (a : Nat) : Prop := s.ip.toNat = a

/-- LP_REGS(v) -/
def State.LpRegs (s : State) (v : RegIx → Byte) : Prop := ∀ i : RegIx, s.reg i = v i

/-! Frames. -/

/-- Everything but the registers is unchanged: every byte of memory, the pointer, the status, the fault record and the
parameters. -/
def State.SameButRegs (s t : State) : Prop :=
  (∀ a : Nat, Memory.byteAt t.mem a = Memory.byteAt s.mem a) ∧ t.mem = s.mem ∧ t.ip = s.ip ∧ t.status = s.status ∧
    t.fault = s.fault ∧ t.params = s.params

/-- Every register other than `x` and the flag register is unchanged, and so is everything that is no register (R88, R90). -/
def State.SameButDestAndFlag (s t : State) (x : RegIx) : Prop :=
  (∀ i : RegIx, i ≠ x → i ≠ Config.flagReg → t.reg i = s.reg i) ∧ s.SameButRegs t

/-! Consistency: the fault record says what happened, precisely (R19, R20, R120 to R122, R127, R159). -/

/-- The record of a FAULTED state: an out-of-bounds pointer, unadvanced; or an unrecognized word, still in memory at the
address recorded, with the pointer 2 past it. -/
def State.FaultRecorded (s : State) : Prop :=
  (s.fault = { cause := .fetchOutOfBounds, addr := s.ip, word := 0 } ∧ s.ip.toNat > 4094) ∨
  (s.fault.cause = .unrecognizedOpcode ∧ s.fault.addr.toNat ≤ 4094 ∧ s.ip = s.fault.addr + 2 ∧
    readInstruction s.mem s.fault.addr = .word s.fault.word ∧
    decode s.params.extAlu s.fault.word = .unrecognized s.fault.word)

/-- The word before the pointer is 0x0000 (R74, R159). -/
def State.HaltRecorded (s : State) : Prop :=
  2 ≤ s.ip.toNat ∧ s.ip.toNat ≤ 4096 ∧ readInstruction s.mem (s.ip - 2) = .word 0

/-- The invariant of the machine: memory is in its canonical form; while RUNNING and when HALTED no fault is recorded; a HALTED
state stands just past a word 0x0000; a FAULTED state's record is precise. -/
def State.Consistent (s : State) : Prop :=
  s.mem.wf = true ∧
    match s.status with
    | .running => s.fault = FaultRecord.empty
    | .halted => s.fault = FaultRecord.empty ∧ s.HaltRecorded
    | .faulted => s.FaultRecorded

/-- A session is consistent: its core is, and a core whose first Step has not been taken is RUNNING (R28). -/
def Session.Consistent (s : Session) : Prop :=
  s.core.Consistent ∧ (s.started = false → s.core.status = .running)

end Sys2Proof.Machine
end

