-- ==== Sys2Proof/Certificates/Slice0/Obligations.lean ====
section
/-! DEFINITION. The statements for the provers, from the numbered rules of the spec. -/

open Sys2Proof Sys2Proof.Machine

/-! Encoding, decode, dispatch (30_encoding.md, R101). -/

/-- Decode and encode agree, in both directions and in both profiles: a word decodes to an instruction exactly when the
instruction is a row in force and the word is its encoding. No bit of an encoding is dropped (R52) and the patterns are
disjoint (R53, R101). The four EXT_ALU rows are marked by the spec "[from general knowledge, not in source]" (log entry 3). -/
def Obligations.DecodeExactlyInvertsEncode : Prop :=
  ∀ (ext : Bool) (i : Instr) (w : Word), decode ext w = .instr i ↔ (i.wellFormed ext = true ∧ encode i = w)

/-- R52: the four fields are the shifted and masked nibbles, and splitting is a bijection. -/
def Obligations.FieldExtractionIsABijection : Prop :=
  (∀ w : Word,
    (Nibbles.split w).c.setWidth 16 = (w >>> 12) &&& 0xF ∧ (Nibbles.split w).x.setWidth 16 = (w >>> 8) &&& 0xF ∧
    (Nibbles.split w).y.setWidth 16 = (w >>> 4) &&& 0xF ∧ (Nibbles.split w).d.setWidth 16 = w &&& 0xF ∧
    (Nibbles.split w).join = w) ∧
  ∀ n : Nibbles, Nibbles.split n.join = n

/-- R62, the opcode map of the base machine: by match and mask, which instruction each of the 65536 words is, and how many
words are HALT, ADD and unrecognized. -/
def Obligations.BaseOpcodeMap : Prop :=
  (∀ w : Word,
    decode false w =
      if w = 0x0000 then .instr .halt
      else if w &&& 0xF00F = 0x8004 then .instr (.add (w.extractLsb' 8 4) (w.extractLsb' 4 4))
      else .unrecognized w) ∧
  Nat.card { w : Word // decode false w = .instr .halt } = 1 ∧
  Nat.card { w : Word // ∃ x y, decode false w = .instr (.add x y) } = 256 ∧
  Nat.card { w : Word // decode false w = .unrecognized w } = 65279

/-- The four patterns EXT_ALU = true adds, by match and mask, and nothing else (R101). The spec marks them "[from general
knowledge, not in source]" (log entry 3). -/
def Obligations.ExtAluAddsFourPatterns : Prop :=
  ∀ w : Word,
    decode true w =
      if w &&& 0xF00F = 0x8001 then .instr (.or (w.extractLsb' 8 4) (w.extractLsb' 4 4))
      else if w &&& 0xF00F = 0x8002 then .instr (.and (w.extractLsb' 8 4) (w.extractLsb' 4 4))
      else if w &&& 0xF00F = 0x8003 then .instr (.xor (w.extractLsb' 8 4) (w.extractLsb' 4 4))
      else if w &&& 0xF00F = 0x8005 then .instr (.sub (w.extractLsb' 8 4) (w.extractLsb' 4 4))
      else decode false w

/-- Words written out from the spec's encodings and the instructions they stand for (95_test_vectors.md V1). The base decodings are those
of 30_encoding.md; the five clauses with EXT_ALU = true rest on R101, which the spec marks "[from general knowledge, not in source]" (log
entry 3, PRESUMED). -/
def Obligations.SampleWordsDecode : Prop :=
  decode false 0x0000 = .instr .halt ∧ decode false 0x8014 = .instr (.add 0 1) ∧ decode false 0x8AB4 = .instr (.add 10 11) ∧
  decode false 0x1480 = .unrecognized 0x1480 ∧ decode false 0x8011 = .unrecognized 0x8011 ∧
  decode true 0x8011 = .instr (.or 0 1) ∧ decode true 0x8012 = .instr (.and 0 1) ∧ decode true 0x8013 = .instr (.xor 0 1) ∧
  decode true 0x8015 = .instr (.sub 0 1) ∧ decode true 0x8016 = .unrecognized 0x8016

/-- A well-formed instruction's word, numbered as opcode_table.json numbers it, is read back by the table decoder; placed at the
pointer of any RUNNING state that can fetch there, it is what the next step runs. Placing it is the model's own operation
(log entry 4). -/
def Obligations.PlacedInstructionIsRun : Prop :=
  ∀ (i : Instr) (s : State), s.status = .running → s.ip.toNat ≤ 4094 → s.mem.wf = true →
    decodeTableWord 16 (encode i).toNat = some i ∧
    step (s.withFetchWord 16 (encode i).toNat) = exec i (s.withFetchWord 16 (encode i).toNat).advance

/-! The fetch (20_memory.md, R72). -/

/-- R72: the fetch unit's result for every pointer value, the word of the two bytes big-endian, or FetchOutOfBounds. -/
def Obligations.FetchResultForEveryPointer : Prop :=
  ∀ (m : Memory) (a : Word),
    (a.toNat > 4094 → readInstruction m a = .outOfBounds a) ∧
    (a.toNat ≤ 4094 → readInstruction m a = .word (Memory.byteAt m a.toNat ++ Memory.byteAt m (a.toNat + 1)))

/-- R34: `w[15:8] = mem[a]`, `w[7:0] = mem[a+1]`, and the four nibbles of the word by the bytes' halves; the fetch is two
one-byte MemReads. -/
def Obligations.FetchIsBigEndian : Prop :=
  ∀ (m : Memory) (a : Word), a.toNat ≤ 4094 →
    ∃ hi lo w, memRead m a.toNat 1 = .ok [hi] ∧ memRead m (a.toNat + 1) 1 = .ok [lo] ∧ readInstruction m a = .word w ∧
      w = (hi.setWidth 16 <<< 8) ||| lo.setWidth 16 ∧ w.hiByte = hi ∧ w.loByte = lo ∧
      (Nibbles.split w).c = hi.extractLsb' 4 4 ∧ (Nibbles.split w).x = hi.extractLsb' 0 4 ∧
      (Nibbles.split w).y = lo.extractLsb' 4 4 ∧ (Nibbles.split w).d = lo.extractLsb' 0 4

/-! The step (R70 to R78). -/

/-- A step runs the decoded instruction: when the word at the pointer of a RUNNING state decodes to an instruction, the step is
exec of it in the state whose pointer, and nothing else, has advanced by 2 (R70, R73). -/
def Obligations.StepRunsDecodedInstruction : Prop :=
  ∀ (s : State) (w : Word) (i : Instr), s.status = .running → readInstruction s.mem s.ip = .word w →
    decode s.params.extAlu w = .instr i →
    step s = exec i { s with ip := s.ip + 2 } ∧ (s.ip + 2).toNat = s.ip.toNat + 2 ∧ i.wellFormed s.params.extAlu = true

/-- R121: a fetch with the pointer above 4094 records (FetchOutOfBounds, ip, 0), sets FAULTED and changes nothing else. -/
def Obligations.OutOfBoundsFetchFaults : Prop :=
  ∀ s : State, s.status = .running → s.ip.toNat > 4094 →
    step s = .next { s with status := .faulted, fault := { cause := .fetchOutOfBounds, addr := s.ip, word := 0 } }

/-- R122: a word that no row in force matches records (UnrecognizedOpcode, its address, the word), sets FAULTED, leaves the
pointer 2 past it and changes nothing else. That the policy is fatal is the spec's own decision D5. -/
def Obligations.UnrecognizedOpcodeFaults : Prop :=
  ∀ (s : State) (w : Word), s.status = .running → readInstruction s.mem s.ip = .word w →
    decode s.params.extAlu w = .unrecognized w →
    step s = .next { s with ip := s.ip + 2, status := .faulted,
                            fault := { cause := .unrecognizedOpcode, addr := s.ip, word := w } }

/-- In the base machine the words 0x8xy1, 0x8xy2, 0x8xy3, 0x8xy5 are unrecognized opcodes and fault (conflict C1, decision D12,
R101). -/
def Obligations.ExtAluWordsFaultInBaseMachine : Prop :=
  ∀ (s : State) (w : Word), s.status = .running → s.params.extAlu = false → readInstruction s.mem s.ip = .word w →
    (w &&& 0xF00F = 0x8001 ∨ w &&& 0xF00F = 0x8002 ∨ w &&& 0xF00F = 0x8003 ∨ w &&& 0xF00F = 0x8005) →
    step s = .next { s with ip := s.ip + 2, status := .faulted,
                            fault := { cause := .unrecognizedOpcode, addr := s.ip, word := w } }

/-- From HALTED and FAULTED neither Step nor Run, with whatever fuel, changes anything (R75; the spec's decision D3), so a fault
is never cleared by stepping (R128, R129). -/
def Obligations.EndedStateNeverChanges : Prop :=
  ∀ (s : State) (k : Nat), s.status ≠ .running → step s = .next s ∧ run s = .next s ∧ runFor k s = .next s

/-- R17: the pointer advances by exactly 2 after a successful fetch, for every word alike and without a wrap, and a fetch that
faults leaves it. -/
def Obligations.PointerAdvancesByTwo : Prop :=
  ∀ s : State, s.status = .running →
    ∃ t, step s = .next t ∧ (s.ip.toNat ≤ 4094 → t.ip.toNat = s.ip.toNat + 2) ∧ (s.ip.toNat > 4094 → t.ip = s.ip)

/-- Step is total: in every state it answers a next state, never a fault or a refusal of the model. R70 says so of RUNNING states only and
leaves the others undefined; that HALTED and FAULTED are answered at all rests on R75, the spec's decision D3 (log entry 7, DEDUCED),
and that the core's fatal faults are next states, not stops of the model, is the model's choice (log entry 8, DESIGN CHOICE). -/
def Obligations.StepIsTotal : Prop := ∀ s : State, ∃ t, step s = .next t

/-- Run is total too, whatever the fuel, and during a run memory and the parameters are constant and the parity of the pointer
never changes (R18, R42). That it is total rests on the same log entries 7 and 8 as `StepIsTotal`. -/
def Obligations.RunKeepsMemoryAndParity : Prop :=
  ∀ (k : Nat) (s : State), ∃ t, runFor k s = .next t ∧ t.mem = s.mem ∧ (∀ a, Memory.byteAt t.mem a = Memory.byteAt s.mem a) ∧
    t.params = s.params ∧ t.ip.toNat % 2 = s.ip.toNat % 2

/-- A step of a RUNNING state halts exactly when the two bytes at an in-bounds pointer are both 0 (R54, R74, R159). -/
def Obligations.HaltsExactlyOnZeroWord : Prop :=
  ∀ s : State, s.status = .running →
    ∃ t, step s = .next t ∧
      (t.status = .halted ↔
        s.ip.toNat ≤ 4094 ∧ Memory.byteAt s.mem s.ip.toNat = 0 ∧ Memory.byteAt s.mem (s.ip.toNat + 1) = 0)

/-- A step of a RUNNING state faults exactly when the fetch is out of bounds or the word is unrecognized; faults are precise: no
register, no byte of memory and no parameter changes, and the pointer moves only past an unrecognized word (R120, R125, R127;
FAULTED and its record are the spec's decisions D3, D4, D5). -/
def Obligations.FaultsExactlyAndPrecisely : Prop :=
  ∀ s : State, s.status = .running →
    ∃ t, step s = .next t ∧
      (t.status = .faulted ↔
        s.ip.toNat > 4094 ∨ ∃ w, readInstruction s.mem s.ip = .word w ∧ ∀ i, decode s.params.extAlu w ≠ .instr i) ∧
      (t.status = .faulted →
        (∀ i, t.reg i = s.reg i) ∧ t.mem = s.mem ∧ t.params = s.params ∧
        t.ip = (if s.ip.toNat > 4094 then s.ip else s.ip + 2) ∧ t.fault.addr = s.ip)

/-- No step records RegisterIndexOutOfRange (R123, R120). -/
def Obligations.RegisterIndexFaultIsUnreachable : Prop :=
  ∀ (k : Nat) (s : State), s.fault.cause ≠ .registerIndexOutOfRange →
    ∃ t, runFor k s = .next t ∧ t.fault.cause ≠ .registerIndexOutOfRange

/-- An extension's handler with an index in range runs on that register; with any other it is the fatal fault, recording the word
and the address it was fetched from, never a wrapped index (R98, R123; the record is the spec's decision D3). -/
def Obligations.MalformedRegisterIndexIsFatal : Prop :=
  ∀ (s : State) (n : Nat) (handler : RegIx → State → State) (w : Word), readInstruction s.mem (s.ip - 2) = .word w →
    (∀ i : RegIx, n = i.toNat → s.withRegIndex n handler = handler i s) ∧
    (16 ≤ n → s.withRegIndex n handler =
      { s with status := .faulted, fault := { cause := .registerIndexOutOfRange, addr := s.ip - 2, word := w } })

/-- A step reads no memory but the two bytes it fetches: with any other memory that has the same two bytes it does the same
(R31, R42). -/
def Obligations.StepReadsOnlyFetchedBytes : Prop :=
  ∀ (s : State) (m : Memory), Memory.byteAt m s.ip.toNat = Memory.byteAt s.mem s.ip.toNat →
    Memory.byteAt m (s.ip.toNat + 1) = Memory.byteAt s.mem (s.ip.toNat + 1) →
    ∃ t, step s = .next t ∧ step { s with mem := m } = .next { t with mem := m }

/-! The instructions: result, completion and frame. -/

/-- R74: HALT completes in every state and writes the status only; in a step it leaves the pointer 2 past its word. -/
def Obligations.HaltWritesStatusOnly : Prop :=
  (∀ s : State, exec .halt s = .next { s with status := .halted }) ∧
  ∀ s : State, s.status = .running → readInstruction s.mem s.ip = .word 0 →
    step s = .next { s with ip := s.ip + 2, status := .halted }

/-- R85: ADD completes in every state, for every pair of registers. The flag register ends holding the carry of the mathematical sum of the
old operand values, whatever X and Y are; a destination other than the flag register ends holding the sum modulo 256; every other
register, every byte of memory, the pointer and the status keep their values. -/
def Obligations.AddWritesSumThenCarry : Prop :=
  ∀ (x y : RegIx) (s : State), ∃ t, exec (.add x y) s = .next t ∧
    t.reg 15 = (if (s.reg x).toNat + (s.reg y).toNat > 255 then 1 else 0) ∧
    (x ≠ 15 → (t.reg x).toNat = ((s.reg x).toNat + (s.reg y).toNat) % 256) ∧
    s.SameButDestAndFlag t x

/-- R87, in every state, whatever an earlier ADD or the host left in the flag register: every ADD writes it, with exactly 0 or 1 by the carry
of its own operands, so a non-overflowing ADD clears it. The old flag enters only when the program names register 15 as an
operand: otherwise any byte in the flag register beforehand gives the same flag afterwards. Of two ADDs in a row the second alone decides,
whether or not the first overflowed. -/
def Obligations.AddFlagIsNotSticky : Prop :=
  ∀ (x y : RegIx) (s : State),
    (∃ u, exec (.add x y) s = .next u ∧ u.reg 15 = (if (s.reg x).toNat + (s.reg y).toNat > 255 then 1 else 0) ∧
      (u.reg 15 = 0 ∨ u.reg 15 = 1) ∧ ((s.reg x).toNat + (s.reg y).toNat ≤ 255 → u.reg 15 = 0)) ∧
    (x ≠ 15 → y ≠ 15 → ∀ f : Byte, ∃ u v, exec (.add x y) s = .next u ∧ exec (.add x y) (s.setReg 15 f) = .next v ∧
      v.reg 15 = u.reg 15) ∧
    (∀ x' y' : RegIx, ∃ t u, exec (.add x y) s = .next t ∧ exec (.add x' y') t = .next u ∧
      u.reg 15 = (if (t.reg x').toNat + (t.reg y').toNat > 255 then 1 else 0) ∧
      ((t.reg x').toNat + (t.reg y').toNat ≤ 255 → u.reg 15 = 0))

/-- The corner cases of ADD at equal operands and at register 15 (R88). That the flag write is the last, so that the sum is lost
when X = 15, is the spec's own decision D6. -/
def Obligations.AddCornerCases : Prop :=
  ∀ (x : RegIx) (s : State),
    (x ≠ 15 → ∃ t, exec (.add x x) s = .next t ∧ (t.reg x).toNat = 2 * (s.reg x).toNat % 256 ∧
      t.reg 15 = (if 128 ≤ (s.reg x).toNat then 1 else 0)) ∧
    (x ≠ 15 → ∃ t, exec (.add x 15) s = .next t ∧ (t.reg x).toNat = ((s.reg x).toNat + (s.reg 15).toNat) % 256 ∧
      t.reg 15 = (if (s.reg x).toNat + (s.reg 15).toNat > 255 then 1 else 0)) ∧
    (x ≠ 15 → ∃ t, exec (.add 15 x) s = .next t ∧ t.reg x = s.reg x ∧
      t.reg 15 = (if (s.reg 15).toNat + (s.reg x).toNat > 255 then 1 else 0)) ∧
    (∃ t, exec (.add 15 15) s = .next t ∧ t.reg 15 = (if 128 ≤ (s.reg 15).toNat then 1 else 0))

/-- ADD is a function of the two operand values and the two indices only (R89 d): in two states that agree on x[X] and x[Y] it
leaves the same destination and the same flag, whatever the other registers, the old flag, memory and the pointer hold. -/
def Obligations.AddDependsOnOperandsOnly : Prop :=
  ∀ (x y : RegIx) (s s' : State), s.reg x = s'.reg x → s.reg y = s'.reg y →
    ∃ t t', exec (.add x y) s = .next t ∧ exec (.add x y) s' = .next t' ∧ t.reg x = t'.reg x ∧ t.reg 15 = t'.reg 15

/-- OR, AND and XOR complete in every state, for every pair of registers, under either LOGIC_FLAG: the destination gets the
bitwise result, and with CLEARED the flag register then 0 (R102 to R104, R106; marked by the spec "[from general knowledge, not in
source]", log entry 3). -/
def Obligations.LogicHandlersWriteResult : Prop :=
  ∀ (x y : RegIx) (s : State) (i : Instr) (v : Byte),
    (i = .or x y ∧ v = s.reg x ||| s.reg y ∨ i = .and x y ∧ v = s.reg x &&& s.reg y ∨
      i = .xor x y ∧ v = s.reg x ^^^ s.reg y) →
    ∃ t, exec i s = .next t ∧
      (s.params.logicFlag = .unchanged → t.reg x = v ∧ (x ≠ 15 → t.reg 15 = s.reg 15)) ∧
      (s.params.logicFlag = .cleared → t.reg 15 = 0 ∧ (x ≠ 15 → t.reg x = v)) ∧
      s.SameButDestAndFlag t x

/-- SUB completes in every state, for every pair of registers, under either SUB_FLAG: the flag register ends holding the borrow or its
complement; a destination other than the flag register ends holding the difference modulo 256 (R105, R106; marked by the spec
"[from general knowledge, not in source]", log entry 3). -/
def Obligations.SubWritesDifferenceThenFlag : Prop :=
  ∀ (x y : RegIx) (s : State), ∃ t, exec (.sub x y) s = .next t ∧
    (s.params.subFlag = .borrow → t.reg 15 = (if (s.reg x).toNat < (s.reg y).toNat then 1 else 0)) ∧
    (s.params.subFlag = .notBorrow → t.reg 15 = (if (s.reg y).toNat ≤ (s.reg x).toNat then 1 else 0)) ∧
    (x ≠ 15 → ((t.reg x).toNat : Int) = ((s.reg x).toNat - (s.reg y).toNat : Int) % 256) ∧
    s.SameButDestAndFlag t x

/-- The EXT_ALU handlers with X = Y, not the flag register: OR and AND leave the register, XOR and SUB write 0, and SUB's flag is
that of no borrow (R102 to R105; "[from general knowledge, not in source]", log entry 3). -/
def Obligations.ExtAluEqualOperands : Prop :=
  ∀ (x : RegIx) (s : State), x ≠ 15 →
    ∃ t1 t2 t3 t4, exec (.or x x) s = .next t1 ∧ exec (.and x x) s = .next t2 ∧ exec (.xor x x) s = .next t3 ∧
      exec (.sub x x) s = .next t4 ∧ t1.reg x = s.reg x ∧ t2.reg x = s.reg x ∧ t3.reg x = 0 ∧ t4.reg x = 0 ∧
      t4.reg 15 = (match s.params.subFlag with | .borrow => 0 | .notBorrow => 1)

/-- The frame of HALT, ADD, OR, AND, XOR and SUB: what an instruction leaves unchanged when exec gives a next state. Registers
other than the destination and the flag register keep their values (HALT: all of them); the flag register keeps its value under OR,
AND and XOR with LOGIC_FLAG = UNCHANGED unless it is the destination; every byte of memory, the pointer, the fault record and the
parameters keep theirs, and so does the status but for HALT (R14, R74, R85). The OR, AND, XOR and SUB clauses rest on R102 to R107, which
the spec marks "[from general knowledge, not in source]" and, for R107, chose by analogy with ADD (log entry 3, PRESUMED). -/
def Obligations.HandlersFrame : Prop :=
  (∀ s t : State, exec .halt s = .next t →
    (∀ r, t.reg r = s.reg r) ∧ (∀ a, Memory.byteAt t.mem a = Memory.byteAt s.mem a) ∧ t.ip = s.ip ∧ t.fault = s.fault ∧
    t.params = s.params) ∧
  ∀ (x y : RegIx) (s t : State) (i : Instr),
    (i = .add x y ∨ i = .or x y ∨ i = .and x y ∨ i = .xor x y ∨ i = .sub x y) → exec i s = .next t →
    (∀ r, r ≠ x → r ≠ 15 → t.reg r = s.reg r) ∧
    ((i = .or x y ∨ i = .and x y ∨ i = .xor x y) → s.params.logicFlag = .unchanged → x ≠ 15 → t.reg 15 = s.reg 15) ∧
    (∀ a, Memory.byteAt t.mem a = Memory.byteAt s.mem a) ∧ t.ip = s.ip ∧ t.status = s.status ∧ t.fault = s.fault ∧
    t.params = s.params

/-! Invariants (R19, R20, R120 to R128, R159). -/

/-- The reset state, under any parameters, is consistent. -/
def Obligations.ResetIsConsistent : Prop :=
  State.reset.Consistent ∧ ∀ p : Params, (State.resetUnder p).Consistent ∧ (Session.fresh p).Consistent

/-- Every step keeps consistency, from every consistent state: memory stays canonical; no fault is recorded while RUNNING or HALTED;
a HALTED state stands just past a word 0x0000; a FAULTED state's record is precise (R19, R20, R74, R121, R122, R127; the statuses
and the record are the spec's decision D3). -/
def Obligations.StepKeepsConsistent : Prop :=
  ∀ s t : State, s.Consistent → step s = .next t → t.Consistent

/-- Every transaction of the host, Run included, keeps a session consistent; none of them answers a fault of the model (R6, R28,
R160). -/
def Obligations.TransactionsKeepConsistent : Prop :=
  ∀ (tr : Transaction) (s : Session), s.Consistent →
    (∀ s', transact tr s = .next s' → s'.Consistent) ∧ ∀ r, transact tr s ≠ .fault r

/-! Runs (R71, R153, R159). -/

/-- Every run ends in HALTED or FAULTED, after at most floor((4094 - ip) / 2) + 2 steps when ip is at most 4094 and after 1 step otherwise, the
bound of rule R71 written out, and more fuel changes nothing. The spec marks the bound [derived]; that Run is given just so much fuel is
log entry 11 (DEDUCED). -/
def Obligations.EveryRunEndsWithinBound : Prop :=
  ∀ s : State, s.status = .running →
    ∃ t, run s = .next t ∧ t.status ≠ .running ∧
      ∀ k, (if s.ip.toNat ≤ 4094 then (4094 - s.ip.toNat) / 2 + 2 else 1) ≤ k → runFor k s = .next t

/-- Sequential execution to HALT (R78, R153, R159): from a RUNNING state, if the first n words at the pointer are each an
instruction in force other than HALT and the next one, still in bounds, is 0x0000, then the run ends HALTED after exactly n + 1 steps,
with the pointer 2 past the halting word. -/
def Obligations.SequentialRunReachesHalt : Prop :=
  ∀ (n : Nat) (s : State), s.status = .running → s.ip.toNat + 2 * n ≤ 4094 →
    (∀ k < n, ∃ w i, readInstruction s.mem (s.ip + BitVec.ofNat 16 (2 * k)) = .word w ∧
      decode s.params.extAlu w = .instr i ∧ i ≠ .halt) →
    readInstruction s.mem (s.ip + BitVec.ofNat 16 (2 * n)) = .word 0 →
    (∃ t, runFor n s = .next t ∧ t.status = .running ∧ t.ip.toNat = s.ip.toNat + 2 * n) ∧
    (∃ t, runFor (n + 1) s = .next t ∧ t.status = .halted ∧ t.ip.toNat = s.ip.toNat + 2 * n + 2 ∧ run s = .next t)

/-! Memory (R24, R30, R32, R33). -/

/-- A MemWrite inside the bounds is read back by MemRead, changes no other address and keeps the canonical form; outside the bounds
both stop, and nothing wraps (R32, R33). -/
def Obligations.MemWriteThenMemRead : Prop :=
  ∀ (m : Memory) (a : Nat) (vs : List Byte), m.wf = true →
    (a + vs.length ≤ 4096 → ∃ m', memWrite m a vs = .ok m' ∧ m'.wf = true ∧ memRead m' a vs.length = .ok vs ∧
      ∀ b, (b < a ∨ a + vs.length ≤ b) → Memory.byteAt m' b = Memory.byteAt m b) ∧
    (4096 < a + vs.length →
      memWrite m a vs = .error (.memoryIndexOutOfRange a) ∧ memRead m a vs.length = .error (.memoryIndexOutOfRange a))

/-- Two memories in canonical form that read alike at the 4096 addresses are equal data. The form is the model's (log entry 5). -/
def Obligations.CanonicalMemoryIsExtensional : Prop :=
  ∀ m m' : Memory, m.wf = true → m'.wf = true → (∀ a < 4096, Memory.byteAt m a = Memory.byteAt m' a) → m = m'

/-! Reset and the host (R6, R26, R28, R138, R150, R152, R161). -/

/-- What Reset leaves (R26): registers and memory 0, pointer 0, RUNNING, the record empty; the base machine (R4). -/
def Obligations.ResetValues : Prop :=
  (∀ i : RegIx, State.reset.reg i = 0) ∧ (∀ a, Memory.byteAt State.reset.mem a = 0) ∧ State.reset.ip = 0 ∧
  State.reset.status = .running ∧ State.reset.fault = { cause := .none, addr := 0, word := 0 } ∧
  State.reset.params.extAlu = false

/-- Reset is legal in every state, ended or not, and puts every piece of state at its reset value (R150; one kind of reset is the
spec's decision D15). The parameters stay (log entry 1). -/
def Obligations.ResetFromEveryState : Prop :=
  ∀ s : Session, ∃ s', transact .reset s = .next s' ∧ s'.started = false ∧ (∀ i, s'.core.reg i = 0) ∧
    (∀ a, Memory.byteAt s'.core.mem a = 0) ∧ s'.core.mem = [] ∧ s'.core.ip = 0 ∧ s'.core.status = .running ∧
    s'.core.fault = { cause := .none, addr := 0, word := 0 } ∧ s'.core.params = s.core.params

/-- After Reset with no load, Run takes one step and ends HALTED with the pointer 2 and all registers 0 (R151). -/
def Obligations.RunAfterResetHalts : Prop :=
  ∀ p : Params, ∃ t, run (State.resetUnder p) = .next t ∧ step (State.resetUnder p) = .next t ∧ t.status = .halted ∧
    t.ip = 2 ∧ ∀ i, t.reg i = 0

/-- Before the first Step the host's writes write exactly what they name; after it they are refused and nothing changes (R28, R33,
R155; the spec's decisions D8, D9; the session's phase is the model's, log entry 6). -/
def Obligations.HostWritesOnlyBeforeFirstStep : Prop :=
  ∀ s : Session,
    (s.started = true → ∀ (a i : Nat) (v : Byte) (p : Word), transact (.writeMem a v) s = .refused .hostWriteDuringRun ∧
      transact (.writeReg i v) s = .refused .hostWriteDuringRun ∧ transact (.setIp p) s = .refused .hostWriteDuringRun) ∧
    (s.started = false → s.core.mem.wf = true →
      (∀ (a : Nat) (v : Byte), a < 4096 → ∃ m, transact (.writeMem a v) s = .next { s with core := { s.core with mem := m } } ∧
        Memory.byteAt m a = v ∧ ∀ b, b ≠ a → Memory.byteAt m b = Memory.byteAt s.core.mem b) ∧
      (∀ (i : RegIx) (v : Byte), ∃ t, transact (.writeReg i.toNat v) s = .next { s with core := t } ∧ t.reg i = v ∧
        (∀ j, j ≠ i → t.reg j = s.core.reg j) ∧ s.core.SameButRegs t) ∧
      (∀ p : Word, transact (.setIp p) s = .next { s with core := { s.core with ip := p } }))

/-- A host index out of range is refused, never wrapped, and in range a read gives what the core holds (R6, R39, R138; the spec's
decision D14). -/
def Obligations.HostIndexOutOfRangeIsRefused : Prop :=
  ∀ s : Session,
    (∀ (a : Nat) (v : Byte), 4096 ≤ a → hostReadMem a s.core = .error (.hostAddressOutOfRange a) ∧
      (s.started = false → transact (.writeMem a v) s = .refused (.hostAddressOutOfRange a))) ∧
    (∀ (i : Nat) (v : Byte), 16 ≤ i → hostReadReg i s.core = .error (.hostRegisterOutOfRange i) ∧
      (s.started = false → transact (.writeReg i v) s = .refused (.hostRegisterOutOfRange i))) ∧
    (∀ a < 4096, hostReadMem a s.core = .ok (Memory.byteAt s.core.mem a)) ∧
    (∀ i : RegIx, hostReadReg i.toNat s.core = .ok (s.core.reg i))

/-- Loading words at an address, before the first Step, puts each word's high byte at the lower address, leaves every other byte and
every other piece of state alone, and makes each word what a fetch at its address reads (R34, R152). -/
def Obligations.LoadedImageIsFetched : Prop :=
  ∀ (s : Session) (a : Nat) (ws : List Word), s.started = false → s.core.mem.wf = true → a + 2 * ws.length ≤ 4096 →
    ∃ m, transactAll (loadMoves a ws) s = .next { s with core := { s.core with mem := m } } ∧ m.wf = true ∧
      (∀ b, b < a ∨ a + 2 * ws.length ≤ b → Memory.byteAt m b = Memory.byteAt s.core.mem b) ∧
      ∀ (k : Nat) (w : Word), ws[k]? = some w → readInstruction m (BitVec.ofNat 16 (a + 2 * k)) = .word w

/-- The boot sequence reaches a state with the launch premises of rule R161, whatever the session was before: RUNNING, no fault, the image
in place and zero elsewhere, the pointer as set, every preloaded register at the last value preloaded into it and the others 0.
LP_NOTHING_IN_FLIGHT and LP_HOST_QUIET are not clauses of it: the first holds of every state, and the second is about the host
during the run. That the first Step has not been taken yet is the session's phase, which is the model's (log entry 6). -/
def Obligations.BootMeetsLaunchPremises : Prop :=
  ∀ (s : Session) (a : Nat) (ws : List Word) (p : Word) (regs : List (RegIx × Byte)), a + 2 * ws.length ≤ 4096 →
    ∃ s', transactAll (bootMoves a ws p (regs.map fun r => (r.1.toNat, r.2))) s = .next s' ∧ s'.started = false ∧
      s'.core.LpRunning ∧ s'.core.LpNoFault ∧ s'.core.LpImage a ws ∧ s'.core.LpZeroElsewhere a ws.length ∧
      s'.core.LpIp p.toNat ∧ s'.core.LpRegs (fun i => regs.foldl (fun v r => if i = r.1 then r.2 else v) 0) ∧ s'.Consistent

/-- A transaction with one core leaves every other core as it was (R29, R47, R135). -/
def Obligations.CoresShareNoState : Prop :=
  ∀ (i : Nat) (tr : Transaction) (cores cores' : List Session), transactAt i tr cores = .next cores' →
    cores'.length = cores.length ∧ (∀ j, j ≠ i → cores'[j]? = cores[j]?) ∧
    ∃ s s', cores[i]? = some s ∧ cores'[i]? = some s' ∧ transact tr s = .next s'
end

