-- ==== Sys2Proof/Laws/Decode.lean ====
section
/-! SUPPORT. The fields of a word, as numbers, and the rows of the decoder. -/

namespace Sys2Proof

/-- A word of four nibbles, as a number (R51). -/
theorem Nibbles.join_toNat (n : Nibbles) :
    n.join.toNat = n.c.toNat * 4096 + n.x.toNat * 256 + n.y.toNat * 16 + n.d.toNat := by
  simp only [Nibbles.join, BitVec.toNat_append]
  rw [← Nat.shiftLeft_add_eq_or_of_lt n.x.isLt, ← Nat.shiftLeft_add_eq_or_of_lt n.y.isLt,
    ← Nat.shiftLeft_add_eq_or_of_lt n.d.isLt]
  simp only [Nat.shiftLeft_eq]
  omega

theorem Nibbles.split_c_toNat (w : Word) : (Nibbles.split w).c.toNat = w.toNat / 4096 := by
  have := w.isLt
  simp only [Nibbles.split, BitVec.extractLsb'_toNat, Nat.shiftRight_eq_div_pow]
  omega

theorem Nibbles.split_x_toNat (w : Word) : (Nibbles.split w).x.toNat = w.toNat / 256 % 16 := by
  simp only [Nibbles.split, BitVec.extractLsb'_toNat, Nat.shiftRight_eq_div_pow]

theorem Nibbles.split_y_toNat (w : Word) : (Nibbles.split w).y.toNat = w.toNat / 16 % 16 := by
  simp only [Nibbles.split, BitVec.extractLsb'_toNat, Nat.shiftRight_eq_div_pow]

theorem Nibbles.split_d_toNat (w : Word) : (Nibbles.split w).d.toNat = w.toNat % 16 := by
  simp only [Nibbles.split, BitVec.extractLsb'_toNat, Nat.shiftRight_eq_div_pow]
  omega

/-- Splitting a joined word gives its nibbles back: no bit is read from the wrong place. -/
theorem Nibbles.split_join (n : Nibbles) : Nibbles.split n.join = n := by
  obtain ⟨c, x, y, d⟩ := n
  have hc := Nibbles.split_c_toNat (Nibbles.join ⟨c, x, y, d⟩)
  have hx := Nibbles.split_x_toNat (Nibbles.join ⟨c, x, y, d⟩)
  have hy := Nibbles.split_y_toNat (Nibbles.join ⟨c, x, y, d⟩)
  have hd := Nibbles.split_d_toNat (Nibbles.join ⟨c, x, y, d⟩)
  rw [Nibbles.join_toNat] at hc hx hy hd
  have := c.isLt; have := x.isLt; have := y.isLt; have := d.isLt
  rw [show Nibbles.split (Nibbles.join ⟨c, x, y, d⟩) = ⟨_, _, _, _⟩ from rfl, Nibbles.mk.injEq]
  refine ⟨BitVec.eq_of_toNat_eq (hc.trans ?_), BitVec.eq_of_toNat_eq (hx.trans ?_),
    BitVec.eq_of_toNat_eq (hy.trans ?_), BitVec.eq_of_toNat_eq (hd.trans ?_)⟩ <;> simp only <;> omega

/-- Joining the nibbles of a word gives the word: no bit is dropped. -/
theorem Nibbles.join_split (w : Word) : (Nibbles.split w).join = w := by
  have := w.isLt
  apply BitVec.eq_of_toNat_eq
  rw [Nibbles.join_toNat, Nibbles.split_c_toNat, Nibbles.split_x_toNat, Nibbles.split_y_toNat, Nibbles.split_d_toNat]
  omega

/-- The bytes of a word, joined, are the word (R34, R50). -/
theorem wordOfBytes_bytes (w : Word) : wordOfBytes w.hiByte w.loByte = w := by
  have := w.isLt
  apply BitVec.eq_of_toNat_eq
  simp only [wordOfBytes, Word.hiByte, Word.loByte, BitVec.toNat_append]
  rw [← Nat.shiftLeft_add_eq_or_of_lt (BitVec.isLt _)]
  simp only [BitVec.extractLsb'_toNat, Nat.shiftRight_eq_div_pow, Nat.shiftLeft_eq]
  omega

theorem wordOfBytes_hiByte (hi lo : Byte) : (wordOfBytes hi lo).hiByte = hi := by
  have := hi.isLt; have := lo.isLt
  apply BitVec.eq_of_toNat_eq
  simp only [wordOfBytes, Word.hiByte, BitVec.extractLsb'_toNat, BitVec.toNat_append, Nat.shiftRight_eq_div_pow]
  rw [← Nat.shiftLeft_add_eq_or_of_lt lo.isLt, Nat.shiftLeft_eq]
  omega

theorem wordOfBytes_loByte (hi lo : Byte) : (wordOfBytes hi lo).loByte = lo := by
  have := lo.isLt
  apply BitVec.eq_of_toNat_eq
  simp only [wordOfBytes, Word.loByte, BitVec.extractLsb'_toNat, BitVec.toNat_append, Nat.shiftRight_eq_div_pow]
  rw [← Nat.shiftLeft_add_eq_or_of_lt lo.isLt, Nat.shiftLeft_eq]
  omega

/-- A word is 0x0000 exactly when both its bytes are 0. -/
theorem wordOfBytes_eq_zero {hi lo : Byte} : wordOfBytes hi lo = 0 ↔ hi = 0 ∧ lo = 0 := by
  constructor
  · intro h
    have h1 := wordOfBytes_hiByte hi lo
    have h2 := wordOfBytes_loByte hi lo
    rw [h] at h1 h2
    exact ⟨h1.symm, h2.symm⟩
  · rintro ⟨rfl, rfl⟩; rfl

/-- The decoder is the 4-tuple match (R53), whatever word the tuple is of. -/
theorem decode_join (ext : Bool) (n : Nibbles) :
    decode ext n.join =
      if n.c = 0 ∧ n.x = 0 ∧ n.y = 0 ∧ n.d = 0 then .instr .halt
      else if n.c = 8 ∧ n.d = 4 then .instr (.add n.x n.y)
      else if ext = true ∧ n.c = 8 ∧ n.d = 1 then .instr (.or n.x n.y)
      else if ext = true ∧ n.c = 8 ∧ n.d = 2 then .instr (.and n.x n.y)
      else if ext = true ∧ n.c = 8 ∧ n.d = 3 then .instr (.xor n.x n.y)
      else if ext = true ∧ n.c = 8 ∧ n.d = 5 then .instr (.sub n.x n.y)
      else .unrecognized n.join := by
  simp only [decode, Nibbles.split_join]

/-- A word is 0x0000 exactly when its four nibbles are 0 (R54). -/
theorem word_eq_zero_iff (w : Word) :
    w = 0 ↔ (Nibbles.split w).c = 0 ∧ (Nibbles.split w).x = 0 ∧ (Nibbles.split w).y = 0 ∧ (Nibbles.split w).d = 0 := by
  constructor
  · rintro rfl; exact ⟨rfl, rfl, rfl, rfl⟩
  · rintro ⟨hc, hx, hy, hd⟩
    rw [← Nibbles.join_split w, Nibbles.join, hc, hx, hy, hd]; rfl

/-- The mask 0xF00F keeps the nibbles c and d (R55, R63). -/
theorem word_masked (w : Word) : w &&& 0xF00F = Nibbles.join ⟨(Nibbles.split w).c, 0, 0, (Nibbles.split w).d⟩ := by
  have hones : ∀ z : Nibble, z &&& 15 = z := by decide
  have hzero : ∀ z : Nibble, z &&& 0 = 0 := by decide
  have key : ∀ c x y d : Nibble, (c ++ x ++ y ++ d : BitVec 16) &&& ((15 : Nibble) ++ (0 : Nibble) ++ (0 : Nibble) ++ (15 : Nibble)) =
      (c ++ (0 : Nibble) ++ (0 : Nibble) ++ d : BitVec 16) := by
    intro c x y d
    rw [BitVec.and_append, BitVec.and_append, BitVec.and_append, hones, hones, hzero, hzero]
  conv_lhs => rw [← Nibbles.join_split w]
  exact key _ _ _ _

/-- A register row matches a word exactly when c is 8 and d is the row's (R55, R63, R101). -/
theorem word_matches_row (w : Word) (d : Nibble) :
    w &&& 0xF00F = Nibbles.join ⟨8, 0, 0, d⟩ ↔ (Nibbles.split w).c = 8 ∧ (Nibbles.split w).d = d := by
  rw [word_masked]
  constructor
  · intro h
    have h' := congrArg Nibbles.split h
    rw [Nibbles.split_join, Nibbles.split_join] at h'
    injection h' with hc _ _ hd
    exact ⟨hc, hd⟩
  · rintro ⟨hc, hd⟩; rw [hc, hd]

/-- In both profiles 0x0000 is HALT (R54). -/
theorem decode_zero (ext : Bool) : decode ext 0 = .instr .halt := by cases ext <;> rfl

/-- A rejected word is the word itself (R56). -/
theorem decode_unrecognized {ext : Bool} {w v : Word} (h : decode ext w = .unrecognized v) : v = w := by
  simp only [decode] at h
  split_ifs at h
  exact (Decoded.unrecognized.inj h).symm

/-- What the decoder can answer: one of the rows in force, or the word rejected. -/
theorem decode_cases (ext : Bool) (w : Word) :
    (∃ i, decode ext w = .instr i ∧ Instr.wellFormed ext i = true) ∨ decode ext w = .unrecognized w := by
  simp only [decode]
  split_ifs with h0 h1 h2 h3 h4 h5
  · exact .inl ⟨_, rfl, rfl⟩
  · exact .inl ⟨_, rfl, rfl⟩
  · exact .inl ⟨_, rfl, h2.1⟩
  · exact .inl ⟨_, rfl, h3.1⟩
  · exact .inl ⟨_, rfl, h4.1⟩
  · exact .inl ⟨_, rfl, h5.1⟩
  · exact .inr rfl

end Sys2Proof
end

