-- ==== Sys2Proof/Laws/State.lean ====
section
/-! SUPPORT. One lemma per field per update of the state, and reading a register after a write. -/

namespace Sys2Proof.Machine

/-! setReg -/

@[simp] theorem State.setReg_mem (s : State) (i : RegIx) (v : Byte) : (s.setReg i v).mem = s.mem := rfl
@[simp] theorem State.setReg_ip (s : State) (i : RegIx) (v : Byte) : (s.setReg i v).ip = s.ip := rfl
@[simp] theorem State.setReg_status (s : State) (i : RegIx) (v : Byte) : (s.setReg i v).status = s.status := rfl
@[simp] theorem State.setReg_fault (s : State) (i : RegIx) (v : Byte) : (s.setReg i v).fault = s.fault := rfl
@[simp] theorem State.setReg_params (s : State) (i : RegIx) (v : Byte) : (s.setReg i v).params = s.params := rfl

theorem regIx_toNat_ne {i j : RegIx} (h : i ≠ j) : i.toNat ≠ j.toNat := fun e => h (BitVec.eq_of_toNat_eq e)

@[simp] theorem State.reg_setReg_same (s : State) (i : RegIx) (v : Byte) : (s.setReg i v).reg i = v := by
  simp [State.reg, State.setReg]

theorem State.reg_setReg_ne (s : State) {i j : RegIx} (v : Byte) (h : j ≠ i) : (s.setReg i v).reg j = s.reg j := by
  simp only [State.reg, State.setReg]
  exact Vector.getElem_set_ne (regIx_lt i) (regIx_lt j) (regIx_toNat_ne h.symm)

theorem State.reg_setReg (s : State) (i j : RegIx) (v : Byte) :
    (s.setReg i v).reg j = if j = i then v else s.reg j := by
  split
  · subst j; simp
  · rename_i h; exact s.reg_setReg_ne v h

/-- Two states are equal when their registers read alike and the other fields agree. -/
theorem State.ext_reg {s t : State} (hr : ∀ i : RegIx, s.reg i = t.reg i) (hm : s.mem = t.mem) (hi : s.ip = t.ip)
    (hs : s.status = t.status) (hf : s.fault = t.fault) (hp : s.params = t.params) : s = t := by
  have hregs : s.regs = t.regs := by
    apply Vector.ext
    intro k hk
    have h := hr (BitVec.ofNat 4 k)
    have e : (BitVec.ofNat 4 k).toNat = k := by simp only [BitVec.toNat_ofNat]; omega
    simp only [State.reg, e] at h
    exact h
  cases s; cases t; simp_all

/-! advance -/

@[simp] theorem State.advance_regs (s : State) : s.advance.regs = s.regs := rfl
@[simp] theorem State.advance_reg (s : State) (i : RegIx) : s.advance.reg i = s.reg i := rfl
@[simp] theorem State.advance_mem (s : State) : s.advance.mem = s.mem := rfl
@[simp] theorem State.advance_ip (s : State) : s.advance.ip = s.ip + 2 := rfl
@[simp] theorem State.advance_status (s : State) : s.advance.status = s.status := rfl
@[simp] theorem State.advance_fault (s : State) : s.advance.fault = s.fault := rfl
@[simp] theorem State.advance_params (s : State) : s.advance.params = s.params := rfl

/-! halt -/

@[simp] theorem State.halt_regs (s : State) : s.halt.regs = s.regs := rfl
@[simp] theorem State.halt_reg (s : State) (i : RegIx) : s.halt.reg i = s.reg i := rfl
@[simp] theorem State.halt_mem (s : State) : s.halt.mem = s.mem := rfl
@[simp] theorem State.halt_ip (s : State) : s.halt.ip = s.ip := rfl
@[simp] theorem State.halt_status (s : State) : s.halt.status = .halted := rfl
@[simp] theorem State.halt_fault (s : State) : s.halt.fault = s.fault := rfl
@[simp] theorem State.halt_params (s : State) : s.halt.params = s.params := rfl

/-! raise -/

@[simp] theorem State.raise_regs (s : State) (c : FaultCause) (a w : Word) : (s.raise c a w).regs = s.regs := rfl
@[simp] theorem State.raise_reg (s : State) (c : FaultCause) (a w : Word) (i : RegIx) :
    (s.raise c a w).reg i = s.reg i := rfl
@[simp] theorem State.raise_mem (s : State) (c : FaultCause) (a w : Word) : (s.raise c a w).mem = s.mem := rfl
@[simp] theorem State.raise_ip (s : State) (c : FaultCause) (a w : Word) : (s.raise c a w).ip = s.ip := rfl
@[simp] theorem State.raise_status (s : State) (c : FaultCause) (a w : Word) : (s.raise c a w).status = .faulted := rfl
@[simp] theorem State.raise_fault (s : State) (c : FaultCause) (a w : Word) :
    (s.raise c a w).fault = { cause := c, addr := a, word := w } := rfl
@[simp] theorem State.raise_params (s : State) (c : FaultCause) (a w : Word) : (s.raise c a w).params = s.params := rfl

/-! resetUnder -/

@[simp] theorem State.resetUnder_reg (p : Params) (i : RegIx) : (State.resetUnder p).reg i = 0 := by
  simp [State.reg, State.resetUnder]
@[simp] theorem State.resetUnder_mem (p : Params) : (State.resetUnder p).mem = [] := rfl
@[simp] theorem State.resetUnder_ip (p : Params) : (State.resetUnder p).ip = 0 := rfl
@[simp] theorem State.resetUnder_status (p : Params) : (State.resetUnder p).status = .running := rfl
@[simp] theorem State.resetUnder_fault (p : Params) : (State.resetUnder p).fault = FaultRecord.empty := rfl
@[simp] theorem State.resetUnder_params (p : Params) : (State.resetUnder p).params = p := rfl

/-! Writes of a result and of the flag, as writes of a register. -/

@[simp] theorem State.writeResult_eq (s : State) (x : RegIx) (v : Byte) : s.writeResult x v = s.setReg x v := rfl
@[simp] theorem State.writeFlag_eq (s : State) (b : Bool) : s.writeFlag b = s.setReg 15 (flagByte b) := rfl
@[simp] theorem State.operands_a (s : State) (x y : RegIx) : (s.operands x y).a = s.reg x := rfl
@[simp] theorem State.operands_b (s : State) (x y : RegIx) : (s.operands x y).b = s.reg y := rfl
@[simp] theorem State.advance_operands (s : State) (x y : RegIx) : s.advance.operands x y = s.operands x y := rfl

end Sys2Proof.Machine
end

