-- ==== Sys2Proof/Laws/Handlers.lean ====
section
/-! SUPPORT. What each handler's meaning answers, once, in terms of register writes; and that none touches anything but the
destination and the flag (R14, R107). -/

namespace Sys2Proof.Machine

theorem execHalt_eq (s : State) : execHalt s = .next s.halt := rfl

theorem execAdd_eq (x y : RegIx) (s : State) :
    execAdd x y s =
      .next ((s.setReg x (BitVec.ofNat 8 ((s.reg x).toNat + (s.reg y).toNat))).setReg 15
        (flagByte (decide ((s.reg x).toNat + (s.reg y).toNat > 255)))) := rfl

theorem execSub_eq (x y : RegIx) (s : State) :
    execSub x y s =
      .next ((s.setReg x (BitVec.ofNat 8 ((s.reg x).toNat + 256 - (s.reg y).toNat))).setReg 15
        (flagByte ((s.operands x y).subFlag s.params.subFlag))) := rfl

/-- OR, AND and XOR differ in the operation only: with LOGIC_FLAG = UNCHANGED the result is written, with CLEARED the flag after
it. -/
theorem State.logicOp_eq (s : State) (f : Byte → Byte → Byte) (x y : RegIx) :
    s.logicOp f x y =
      match s.params.logicFlag with
      | .unchanged => s.setReg x (f (s.reg x) (s.reg y))
      | .cleared => (s.setReg x (f (s.reg x) (s.reg y))).setReg 15 0 := by
  simp only [State.logicOp, State.writeResult_eq, State.operands_a, State.operands_b]
  cases s.params.logicFlag <;> rfl

/-- A write of the destination and then of the flag changes nothing else. -/
theorem State.sameBut_setReg_flag (s : State) (x : RegIx) (v f : Byte) :
    s.SameButDestAndFlag ((s.setReg x v).setReg 15 f) x :=
  ⟨fun i hx hf => by rw [State.reg_setReg_ne _ _ hf, State.reg_setReg_ne _ _ hx], fun _ => rfl, rfl, rfl, rfl, rfl, rfl⟩

theorem State.sameBut_setReg (s : State) (x : RegIx) (v : Byte) : s.SameButDestAndFlag (s.setReg x v) x :=
  ⟨fun _ hx _ => State.reg_setReg_ne _ _ hx, fun _ => rfl, rfl, rfl, rfl, rfl, rfl⟩

theorem State.sameBut_logicOp (s : State) (f : Byte → Byte → Byte) (x y : RegIx) :
    s.SameButDestAndFlag (s.logicOp f x y) x := by
  rw [State.logicOp_eq]
  cases s.params.logicFlag
  · exact s.sameBut_setReg x _
  · exact s.sameBut_setReg_flag x _ _

/-- Everything `exec` can do: HALT sets the status; every other instruction changes the destination and the flag alone. -/
theorem exec_cases (i : Instr) (s : State) :
    ∃ t, exec i s = .next t ∧ (i = .halt ∧ t = s.halt ∨ i ≠ .halt ∧ ∃ x, s.SameButDestAndFlag t x) := by
  cases i with
  | halt => exact ⟨_, rfl, .inl ⟨rfl, rfl⟩⟩
  | add x y => exact ⟨_, rfl, .inr ⟨nofun, x, s.sameBut_setReg_flag x _ _⟩⟩
  | or x y => exact ⟨_, rfl, .inr ⟨nofun, x, s.sameBut_logicOp _ x y⟩⟩
  | and x y => exact ⟨_, rfl, .inr ⟨nofun, x, s.sameBut_logicOp _ x y⟩⟩
  | xor x y => exact ⟨_, rfl, .inr ⟨nofun, x, s.sameBut_logicOp _ x y⟩⟩
  | sub x y => exact ⟨_, rfl, .inr ⟨nofun, x, s.sameBut_setReg_flag x _ _⟩⟩

@[simp] theorem flagByte_true : flagByte true = 1 := rfl
@[simp] theorem flagByte_false : flagByte false = 0 := rfl

theorem flagByte_decide (p : Prop) [Decidable p] : flagByte (decide p) = if p then 1 else 0 := by
  by_cases h : p <;> simp [h]

/-- The flag byte is 0 or 1 (R87). -/
theorem flagByte_zero_or_one (b : Bool) : flagByte b = 0 ∨ flagByte b = 1 := by cases b <;> simp

/-- A raw index in range is that register's index, and a number that is none is refused (R98, R123). -/
theorem regIndex_eq_some {n : Nat} {i : RegIx} : regIndex n = some i ↔ n = i.toNat := by
  have := i.isLt
  unfold regIndex
  constructor
  · intro h
    split at h
    · rw [← Option.some.inj h, BitVec.toNat_ofNat]; omega
    · cases h
  · rintro rfl
    rw [if_pos (by omega)]
    congr 1
    exact BitVec.eq_of_toNat_eq (by rw [BitVec.toNat_ofNat]; omega)

theorem regIndex_eq_none {n : Nat} : regIndex n = none ↔ 16 ≤ n := by
  unfold regIndex; split <;> simp <;> omega

end Sys2Proof.Machine
end

