-- ==== Sys2Proof/Laws/Memory.lean ====
section
/-! SUPPORT. Memory: a read after a write, the canonical form and that every operation keeps it, and equality of canonical
memories. -/

namespace Sys2Proof.Machine

theorem Memory.wfFrom_cons {lo a : Nat} {v : Byte} {m : Memory} :
    Memory.wfFrom lo ((a, v) :: m) = true ↔
      lo ≤ a ∧ a < 4096 ∧ v ≠ Memory.unlisted ∧ Memory.wfFrom (a + 1) m = true := by
  simp only [Memory.wfFrom, Bool.and_eq_true, decide_eq_true_eq, and_assoc]
  rfl

theorem Memory.wfFrom_mono {lo lo' : Nat} {m : Memory} (h : lo' ≤ lo) (hm : Memory.wfFrom lo m = true) :
    Memory.wfFrom lo' m = true := by
  cases m with
  | nil => rfl
  | cons c m =>
    obtain ⟨a, v⟩ := c
    rw [Memory.wfFrom_cons] at hm ⊢
    exact ⟨by omega, hm.2⟩

/-- Below the bound of the canonical form nothing is listed. -/
theorem Memory.byteAt_below {m : Memory} {lo a : Nat} (hm : Memory.wfFrom lo m = true) (h : a < lo) :
    Memory.byteAt m a = Memory.unlisted := by
  induction m generalizing lo with
  | nil => rfl
  | cons c m ih =>
    obtain ⟨b, v⟩ := c
    rw [Memory.wfFrom_cons] at hm
    rw [Memory.byteAt, if_neg (by omega)]
    exact ih hm.2.2.2 (by omega)

/-- Reading the address just stored gives the value stored. -/
theorem Memory.byteAt_store_same {m : Memory} {lo : Nat} (a : Nat) (v : Byte) (hm : Memory.wfFrom lo m = true) :
    Memory.byteAt (Memory.store m a v) a = v := by
  induction m generalizing lo with
  | nil => by_cases hv : v = Memory.unlisted <;> simp [Memory.store, Memory.byteAt, hv]
  | cons c m ih =>
    obtain ⟨b, u⟩ := c
    rw [Memory.wfFrom_cons] at hm
    have hbelow : a ≤ b → Memory.byteAt m a = Memory.unlisted := fun h => Memory.byteAt_below hm.2.2.2 (by omega)
    rcases lt_trichotomy a b with h | h | h
    · by_cases hv : v = Memory.unlisted
      · simp [Memory.store, Memory.byteAt, hv, h, Nat.ne_of_gt h, hbelow (Nat.le_of_lt h)]
      · simp [Memory.store, Memory.byteAt, hv, h]
    · by_cases hv : v = Memory.unlisted
      · simp [Memory.store, hv, h, h ▸ hbelow (Nat.le_of_eq h)]
      · simp [Memory.store, Memory.byteAt, hv, h]
    · rw [Memory.store, if_neg (by omega), if_neg (by omega), Memory.byteAt, if_neg (by omega)]
      exact ih hm.2.2.2

/-- Every other address reads as before. -/
theorem Memory.byteAt_store_ne (m : Memory) {a c : Nat} (v : Byte) (h : c ≠ a) :
    Memory.byteAt (Memory.store m a v) c = Memory.byteAt m c := by
  induction m with
  | nil => by_cases hv : v = Memory.unlisted <;> simp [Memory.store, Memory.byteAt, hv, h.symm]
  | cons e m ih =>
    obtain ⟨b, u⟩ := e
    by_cases hab : a < b
    · by_cases hv : v = Memory.unlisted
      · simp [Memory.store, hv, hab]
      · rw [Memory.store, if_pos hab, if_neg hv, Memory.byteAt, if_neg h.symm]
    · by_cases heq : a = b
      · by_cases hv : v = Memory.unlisted
        · rw [Memory.store, if_neg hab, if_pos heq, if_pos hv, Memory.byteAt, if_neg (by omega)]
        · rw [Memory.store, if_neg hab, if_pos heq, if_neg hv, Memory.byteAt, Memory.byteAt, if_neg (by omega),
            if_neg (by omega)]
      · rw [Memory.store, if_neg hab, if_neg heq, Memory.byteAt, Memory.byteAt, ih]

/-- A store below 4096 keeps the canonical form. -/
theorem Memory.store_wfFrom {m : Memory} {lo a : Nat} (v : Byte) (hm : Memory.wfFrom lo m = true) (hlo : lo ≤ a)
    (ha : a < 4096) : Memory.wfFrom lo (Memory.store m a v) = true := by
  induction m generalizing lo with
  | nil =>
    by_cases hv : v = Memory.unlisted
    · simp [Memory.store, hv, Memory.wfFrom]
    · rw [Memory.store, if_neg hv, Memory.wfFrom_cons]
      exact ⟨hlo, ha, hv, rfl⟩
  | cons e m ih =>
    obtain ⟨b, u⟩ := e
    have hm' := Memory.wfFrom_cons.mp hm
    by_cases hab : a < b
    · by_cases hv : v = Memory.unlisted
      · simpa [Memory.store, hv, hab] using hm
      · rw [Memory.store, if_pos hab, if_neg hv, Memory.wfFrom_cons, Memory.wfFrom_cons]
        exact ⟨hlo, ha, hv, by omega, hm'.2⟩
    · by_cases heq : a = b
      · by_cases hv : v = Memory.unlisted
        · rw [Memory.store, if_neg hab, if_pos heq, if_pos hv]
          exact Memory.wfFrom_mono (by omega) hm'.2.2.2
        · rw [Memory.store, if_neg hab, if_pos heq, if_neg hv, Memory.wfFrom_cons]
          exact ⟨hlo, ha, hv, heq ▸ hm'.2.2.2⟩
      · rw [Memory.store, if_neg hab, if_neg heq, Memory.wfFrom_cons]
        exact ⟨hm'.1, hm'.2.1, hm'.2.2.1, ih hm'.2.2.2 (by omega)⟩

theorem Memory.store_wf {m : Memory} {a : Nat} (v : Byte) (hm : m.wf = true) (ha : a < 4096) :
    (Memory.store m a v).wf = true :=
  Memory.store_wfFrom v hm (Nat.zero_le a) ha

theorem Memory.storeAll_wf {m : Memory} {a : Nat} (vs : List Byte) (hm : m.wf = true) (ha : a + vs.length ≤ 4096) :
    (Memory.storeAll m a vs).wf = true := by
  induction vs generalizing m a with
  | nil => exact hm
  | cons v vs ih =>
    rw [List.length_cons] at ha
    exact ih (Memory.store_wf v hm (by omega)) (by omega)

theorem Memory.byteAt_storeAll_ne (m : Memory) {a c : Nat} (vs : List Byte) (h : c < a ∨ a + vs.length ≤ c) :
    Memory.byteAt (Memory.storeAll m a vs) c = Memory.byteAt m c := by
  induction vs generalizing m a with
  | nil => rfl
  | cons v vs ih =>
    rw [List.length_cons] at h
    rw [Memory.storeAll, ih _ (by omega), Memory.byteAt_store_ne _ _ (by omega)]

/-- Each byte of a wide store is read back at its own address. -/
theorem Memory.byteAt_storeAll {m : Memory} {a : Nat} (vs : List Byte) (hm : m.wf = true) (ha : a + vs.length ≤ 4096) {k : Nat}
    (hk : k < vs.length) : Memory.byteAt (Memory.storeAll m a vs) (a + k) = vs[k] := by
  induction vs generalizing m a k with
  | nil => exact absurd hk (Nat.not_lt_zero k)
  | cons v vs ih =>
    rw [List.length_cons] at ha hk
    rw [Memory.storeAll]
    cases k with
    | zero =>
      rw [Memory.byteAt_storeAll_ne _ _ (by omega)]
      exact Memory.byteAt_store_same _ _ hm
    | succ k =>
      rw [show a + (k + 1) = a + 1 + k by omega, ih (Memory.store_wf v hm (by omega)) (by omega) (by omega)]
      rfl

/-- The memory of the reset state is in its canonical form. -/
theorem State.reset_mem_wf : State.reset.mem.wf = true := rfl

/-- `memWrite` inside the bounds stores, and keeps the canonical form. -/
theorem memWrite_ok {m m' : Memory} {a : Nat} {vs : List Byte} (h : memWrite m a vs = .ok m') :
    m' = Memory.storeAll m a vs ∧ a + vs.length ≤ 4096 := by
  unfold memWrite Config.memSize at h
  split at h
  · rename_i hb; exact ⟨(Except.ok.inj h).symm, hb⟩
  · cases h

theorem memWrite_wf {m m' : Memory} {a : Nat} {vs : List Byte} (hm : m.wf = true) (h : memWrite m a vs = .ok m') :
    m'.wf = true := by
  obtain ⟨rfl, hb⟩ := memWrite_ok h
  exact Memory.storeAll_wf vs hm hb

end Sys2Proof.Machine
end

