-- ==== Sys2Proof/Laws/Step.lean ====
section
/-! SUPPORT. The fetch, and the inversion of a step: everything a step can do, said once (R70, R75). -/

namespace Sys2Proof.Machine

theorem readInstruction_of_le {m : Memory} {p : Word} (h : p.toNat ≤ 4094) :
    readInstruction m p = .word (wordOfBytes (Memory.byteAt m p.toNat) (Memory.byteAt m (p.toNat + 1))) := by
  have h' : ¬ p.toNat > Config.lastFetch := by simp only [Config.lastFetch]; omega
  rw [readInstruction, if_neg h']

theorem readInstruction_of_gt {m : Memory} {p : Word} (h : p.toNat > 4094) : readInstruction m p = .outOfBounds p := by
  have h' : p.toNat > Config.lastFetch := h
  rw [readInstruction, if_pos h']

theorem readInstruction_word {m : Memory} {p w : Word} (h : readInstruction m p = .word w) : p.toNat ≤ 4094 := by
  by_contra hp
  rw [readInstruction_of_gt (by omega)] at h
  cases h

theorem readInstruction_outOfBounds {m : Memory} {p a : Word} (h : readInstruction m p = .outOfBounds a) :
    a = p ∧ p.toNat > 4094 := by
  by_cases hp : p.toNat ≤ 4094
  · rw [readInstruction_of_le hp] at h; cases h
  · rw [readInstruction_of_gt (by omega)] at h
    exact ⟨(Fetched.outOfBounds.inj h).symm, by omega⟩

/-- The fetch is two one-byte MemReads, joined big-endian (R32, R34). -/
theorem readInstruction_memRead {m : Memory} {p : Word} (h : p.toNat ≤ 4094) :
    ∃ hi lo, memRead m p.toNat 1 = .ok [hi] ∧ memRead m (p.toNat + 1) 1 = .ok [lo] ∧
      readInstruction m p = .word (wordOfBytes hi lo) := by
  refine ⟨_, _, ?_, ?_, readInstruction_of_le h⟩
  · simp [memRead, Config.memSize]; omega
  · simp [memRead, Config.memSize]; omega

/-- The advance after a fetch does not wrap (R18). -/
theorem advance_toNat {p : Word} (h : p.toNat ≤ 4094) : (p + 2).toNat = p.toNat + 2 := by
  bv_omega

/-- The pointer before the advance (R120). -/
theorem advance_sub (p : Word) : p + 2 - 2 = p := by bv_omega

theorem step_of_ended {s : State} (h : s.status ≠ .running) : step s = .next s := by
  unfold step cycle
  cases hs : s.status
  · exact absurd hs h
  · rfl
  · rfl

theorem step_of_running {s : State} (h : s.status = .running) : step s = runningStep s := by
  simp only [step, cycle, h]

/-- A step whose fetch is out of bounds. -/
theorem step_outOfBounds {s : State} (h : s.status = .running) (hp : s.ip.toNat > 4094) :
    step s = .next (s.raiseFetchOutOfBounds s.ip) := by
  rw [step_of_running h, runningStep, readInstruction_of_gt hp]

/-- A step whose fetch succeeds dispatches the word. -/
theorem step_word {s : State} {w : Word} (h : s.status = .running) (hw : readInstruction s.mem s.ip = .word w) :
    step s = dispatchWord s.advance s.ip w := by
  rw [step_of_running h, runningStep, hw]

theorem dispatchWord_instr {s : State} {a w : Word} {i : Instr} (h : decode s.params.extAlu w = .instr i) :
    dispatchWord s a w = exec i s := by
  rw [dispatchWord, h]

theorem dispatchWord_unrecognized {s : State} {a w : Word} (h : decode s.params.extAlu w = .unrecognized w) :
    dispatchWord s a w = .next (s.raiseUnrecognized a w) := by
  rw [dispatchWord, h]

/-- Everything a step can do: nothing, when the run has ended; a fault of the fetch; a fault of dispatch; or the decoded
instruction in the state after the advance. It always answers a next state. -/
theorem step_cases (s : State) :
    ∃ t, step s = .next t ∧
      ((s.status ≠ .running ∧ t = s) ∨
       (s.status = .running ∧ s.ip.toNat > 4094 ∧ t = s.raiseFetchOutOfBounds s.ip) ∨
       (s.status = .running ∧ s.ip.toNat ≤ 4094 ∧ ∃ w, readInstruction s.mem s.ip = .word w ∧
         ((decode s.params.extAlu w = .unrecognized w ∧ t = s.advance.raiseUnrecognized s.ip w) ∨
          ∃ i, decode s.params.extAlu w = .instr i ∧ exec i s.advance = .next t ∧
            (i = .halt ∧ t = s.advance.halt ∨ i ≠ .halt ∧ ∃ x, s.advance.SameButDestAndFlag t x)))) := by
  by_cases hr : s.status = .running
  · by_cases hp : s.ip.toNat ≤ 4094
    · have hw := readInstruction_of_le (m := s.mem) hp
      rw [step_word hr hw]
      rcases decode_cases s.params.extAlu
          (wordOfBytes (Memory.byteAt s.mem s.ip.toNat) (Memory.byteAt s.mem (s.ip.toNat + 1))) with ⟨i, hi, -⟩ | hu
      · obtain ⟨t, ht, hc⟩ := exec_cases i s.advance
        refine ⟨t, ?_, .inr (.inr ⟨hr, hp, _, hw, .inr ⟨i, hi, ht, hc⟩⟩)⟩
        rw [dispatchWord_instr (by simpa using hi), ht]
      · refine ⟨_, ?_, .inr (.inr ⟨hr, hp, _, hw, .inl ⟨hu, rfl⟩⟩)⟩
        rw [dispatchWord_unrecognized (by simpa using hu)]
    · exact ⟨_, step_outOfBounds hr (by omega), .inr (.inl ⟨hr, by omega, rfl⟩)⟩
  · exact ⟨s, step_of_ended hr, .inl ⟨hr, rfl⟩⟩

/-- A word decodes to HALT only if it is 0x0000 (R54). -/
theorem decode_halt {ext : Bool} {w : Word} (h : decode ext w = .instr .halt) : w = 0 := by
  rw [← Nibbles.join_split w]
  simp only [decode] at h
  split_ifs at h with h0
  · obtain ⟨hc, hx, hy, hd⟩ := h0
    rw [Nibbles.join, hc, hx, hy, hd]; rfl
  all_goals cases h

theorem runFor_succ_running {k : Nat} {s t : State} (h : s.status = .running) (ht : step s = .next t) :
    runFor (k + 1) s = runFor k t := by
  rw [runFor, h]; simp only [ht]

theorem runFor_ended {k : Nat} {s : State} (h : s.status ≠ .running) : runFor k s = .next s := by
  cases k with
  | zero => rfl
  | succ k =>
    rw [runFor]
    cases hs : s.status
    · exact absurd hs h
    · rfl
    · rfl

end Sys2Proof.Machine
end

