-- ==== Sys2Proof/Laws/Host.lean ====
section
/-! SUPPORT. The host's transactions: what each answers before the first Step, and that Step and Run always answer a next state. -/

namespace Sys2Proof.Machine

/-- A run always answers a next state. -/
theorem runFor_next (k : Nat) (s : State) : ∃ t, runFor k s = .next t := by
  induction k generalizing s with
  | zero => exact ⟨s, rfl⟩
  | succ k ih =>
    by_cases h : s.status = .running
    · obtain ⟨t, ht, -⟩ := step_cases s
      rw [runFor_succ_running h ht]
      exact ih t
    · exact ⟨s, runFor_ended h⟩

/-- What every step keeps, a run keeps: the induction over a run, said once. -/
theorem runFor_induction {P : State → Prop} (hstep : ∀ s t, s.status = .running → P s → step s = .next t → P t) (k : Nat) {s t : State}
    (hs : P s) (h : runFor k s = .next t) : P t := by
  induction k generalizing s with
  | zero => cases h; exact hs
  | succ k ih =>
    by_cases hr : s.status = .running
    · obtain ⟨u, hu, -⟩ := step_cases s
      rw [runFor_succ_running hr hu] at h
      exact ih (hstep s u hr hs hu) h
    · rw [runFor_ended hr] at h
      cases h; exact hs

theorem transact_reset (s : Session) :
    transact .reset s = .next { core := State.resetUnder s.core.params, started := false } := rfl

theorem transact_step (s : Session) {t : State} (h : step s.core = .next t) :
    transact .step s = .next { core := t, started := true } := by
  simp only [transact, Session.take, h]

theorem transact_run (s : Session) {t : State} (h : run s.core = .next t) :
    transact .run s = .next { core := t, started := true } := by
  simp only [transact, Session.take, h]

/-- HostWriteMem in range, before the first Step. -/
theorem transact_writeMem {s : Session} {a : Nat} (v : Byte) (hs : s.started = false) (ha : a < 4096) :
    transact (.writeMem a v) s = .next { s with core := { s.core with mem := Memory.store s.core.mem a v } } := by
  have hb : a < Config.memSize := ha
  have hw : memWrite s.core.mem a [v] = .ok (Memory.store s.core.mem a v) := by
    simp only [memWrite, List.length_singleton]
    rw [if_pos (by omega)]
    rfl
  simp only [transact, Session.hostWrite, hs, hostWriteMem, if_pos hb, hw]
  rfl

/-- HostWriteReg in range, before the first Step. -/
theorem transact_writeReg {s : Session} (i : RegIx) (v : Byte) (hs : s.started = false) :
    transact (.writeReg i.toNat v) s = .next { s with core := s.core.setReg i v } := by
  simp only [transact, Session.hostWrite, hs, hostWriteReg, regIndex_eq_some.mpr rfl]
  rfl

/-- HostSetIP, before the first Step. -/
theorem transact_setIp {s : Session} (p : Word) (hs : s.started = false) :
    transact (.setIp p) s = .next { s with core := { s.core with ip := p } } := by
  simp only [transact, Session.hostWrite, hs, hostSetIp]
  rfl

/-- Any host write after the first Step is refused. -/
theorem hostWrite_started {s : Session} (f : State → Host.Outcome State Fault Refusal) (hs : s.started = true) :
    s.hostWrite f = .refused .hostWriteDuringRun := by
  simp only [Session.hostWrite, hs, if_true]

/-- Transactions in two parts. -/
theorem transactAll_append {ts us : List Transaction} {s s' : Session} (h : transactAll ts s = .next s') :
    transactAll (ts ++ us) s = transactAll us s' := by
  induction ts generalizing s with
  | nil => cases h; rfl
  | cons t ts ih =>
    rw [transactAll] at h
    rw [List.cons_append, transactAll]
    cases hu : transact t s with
    | next u => rw [hu] at h; exact ih h
    | fault r => rw [hu] at h; cases h
    | refused r => rw [hu] at h; cases h

theorem transactAll_cons {t : Transaction} {ts : List Transaction} {s s' : Session} (h : transact t s = .next s') :
    transactAll (t :: ts) s = transactAll ts s' := by
  rw [transactAll, h]

end Sys2Proof.Machine
end

