-- ==== Sys2Proof/Laws/PerInstr.lean ====
section
/-! SUPPORT. Facts proved for all instructions, one lemma per constructor: the encoder's word is a word of the instruction's own row
of opcode_table.json. -/

namespace Sys2Proof.Laws.TableRow

/-- The column "mask" of the instruction's row in opcode_table.json (R63). -/
def mask : Instr → Word
  | .halt => 0xFFFF
  | .add _ _ => 0xF00F
  | .or _ _ => 0xF00F
  | .and _ _ => 0xF00F
  | .xor _ _ => 0xF00F
  | .sub _ _ => 0xF00F

/-- The column "match" of the instruction's row in opcode_table.json (R63). -/
def pattern : Instr → Word
  | .halt => 0x0000
  | .add _ _ => 0x8004
  | .or _ _ => 0x8001
  | .and _ _ => 0x8002
  | .xor _ _ => 0x8003
  | .sub _ _ => 0x8005

/-- `w & mask = match`, the criterion of rule R63, holds of the word the encoder gives. -/
def Statement (i : Instr) : Prop := encode i &&& mask i = pattern i

theorem halt : Statement .halt := rfl

theorem add : ∀ x y : RegIx, Statement (.add x y) := by unfold Statement; decide

theorem or : ∀ x y : RegIx, Statement (.or x y) := by unfold Statement; decide

theorem and : ∀ x y : RegIx, Statement (.and x y) := by unfold Statement; decide

theorem xor : ∀ x y : RegIx, Statement (.xor x y) := by unfold Statement; decide

theorem sub : ∀ x y : RegIx, Statement (.sub x y) := by unfold Statement; decide

end Sys2Proof.Laws.TableRow
end

