-- ==== Sys2Proof/Tests/Slice0.lean ====
section
/-! SUPPORT. Tests: the well-formedness smoke, words written out from the spec's encodings, one-step tests with expected values from
95_test_vectors.md, and a witness for the hypotheses of every statement. -/

namespace Sys2Proof.Tests

open Sys2Proof.Machine

/-! Small states. -/

/-- A RUNNING state with given parameters, memory, pointer and registers, the others 0. -/
def mk (p : Params) (m : Memory) (ip : Word) (regs : List (RegIx × Byte)) : State :=
  regs.foldl (fun s r => s.setReg r.1 r.2) { State.resetUnder p with mem := m, ip := ip }

/-- The base machine, with concrete values of the parameters it does not use. -/
def base : Params := { extAlu := false, subFlag := .borrow, logicFlag := .unchanged }

/-- EXT_ALU with given sub-parameters. -/
def ext (f : SubFlag) (l : LogicFlag) : Params := { extAlu := true, subFlag := f, logicFlag := l }

/-- Two registers after an outcome, if it is a next state. -/
def regsOf (o : Host.Outcome State Fault Refusal) (i j : RegIx) : Option (Byte × Byte) :=
  match o with
  | .next t => some (t.reg i, t.reg j)
  | .fault _ => none
  | .refused _ => none

/-- The status, pointer and fault record after an outcome, if it is a next state. -/
def ctlOf (o : Host.Outcome State Fault Refusal) : Option (Status × Word × FaultRecord) :=
  match o with
  | .next t => some (t.status, t.ip, t.fault)
  | .fault _ => none
  | .refused _ => none

/-! Well-formedness: an EXT_ALU row is refused in the base machine (R63, R101), and only there. -/

theorem test_wellFormed_refuses_ext_in_base :
    Instr.wellFormed false (.or 0 1) = false ∧ Instr.wellFormed false (.and 0 1) = false ∧
    Instr.wellFormed false (.xor 0 1) = false ∧ Instr.wellFormed false (.sub 0 1) = false := by decide

theorem test_wellFormed_accepts :
    Instr.wellFormed false .halt = true ∧ Instr.wellFormed false (.add 15 15) = true ∧ Instr.wellFormed true (.sub 15 0) = true := by decide

/-! Decoding: words written out bit by bit from the encodings 0000000000000000 (HALT), 1000xxxxyyyy0100 (ADD), 1000xxxxyyyy0001 (OR),
1000xxxxyyyy0010 (AND), 1000xxxxyyyy0011 (XOR), 1000xxxxyyyy0101 (SUB) of R54, R55, R101. -/

theorem test_decode_halt : decode false 0b0000000000000000 = .instr .halt := by decide
theorem test_decode_add : decode false 0b1000101010110100 = .instr (.add 10 11) := by decide
theorem test_decode_or : decode true 0b1000000100100001 = .instr (.or 1 2) := by decide
theorem test_decode_and : decode true 0b1000000100100010 = .instr (.and 1 2) := by decide
theorem test_decode_xor : decode true 0b1000000100100011 = .instr (.xor 1 2) := by decide
theorem test_decode_sub : decode true 0b1000111100010101 = .instr (.sub 15 1) := by decide

/-- V1: words that are unrecognized in both profiles, the byte-swapped ADD among them. -/
theorem test_decode_unrecognized :
    ([0x0001, 0x0010, 0x0100, 0x0004, 0x00E0, 0x00EE, 0x1000, 0x1200, 0x1480, 0x7004, 0x8000, 0x8016, 0x801E, 0x9004, 0xF004, 0xFFFF] :
      List Word).all (fun w => decode false w = .unrecognized w ∧ decode true w = .unrecognized w) = true := by decide

/-- V1: the four EXT_ALU words are unrecognized in the base machine. -/
theorem test_decode_ext_words_in_base :
    ([0x8011, 0x8012, 0x8013, 0x8015] : List Word).all (fun w => decode false w = .unrecognized w) = true := by decide

/-- V5 and R50: bytes 80 14 are ADD r0, r1, and one byte is no instruction. -/
theorem test_decode_bytes :
    decodeBytes false [0x80, 0x14, 0x00] = .decoded (.instr (.add 0 1)) [0x00] ∧ decodeBytes false [0x80] = .truncated [0x80] := by
  decide

theorem test_encode : encode .halt = 0x0000 ∧ encode (.add 8 15) = 0x88F4 ∧ encode (.or 1 2) = 0x8121 ∧ encode (.and 1 2) = 0x8122 ∧
    encode (.xor 1 1) = 0x8113 ∧ encode (.sub 1 2) = 0x8125 := by decide

theorem test_decodeTableWord : decodeTableWord 16 0x8014 = some (.add 0 1) ∧ decodeTableWord 16 0x8125 = some (.sub 1 2) ∧
    decodeTableWord 16 0x9004 = none ∧ decodeTableWord 16 0 = some .halt := by decide

/-! The instructions (expected values from V2, V3, V6 of 95_test_vectors.md). -/

/-- V2: 250 + 10 = 260. -/
theorem test_add_overflow : regsOf (exec (.add 0 1) (mk base [] 2 [(0, 250), (1, 10), (15, 7)])) 0 15 = some (4, 1) := by decide

/-- V3: 0x8F14, the sum 44 is lost and the carry stays. -/
theorem test_add_destination_flag : regsOf (exec (.add 15 1) (mk base [] 2 [(15, 200), (1, 100)])) 15 1 = some (1, 100) := by decide

/-- V6: OR leaves the flag when LOGIC_FLAG = UNCHANGED. -/
theorem test_or_unchanged :
    regsOf (exec (.or 1 2) (mk (ext .borrow .unchanged) [] 2 [(1, 0xF0), (2, 0x0F), (15, 1)])) 1 15 = some (0xFF, 1) := by decide

/-- V6: OR clears the flag when LOGIC_FLAG = CLEARED. -/
theorem test_or_cleared :
    regsOf (exec (.or 1 2) (mk (ext .borrow .cleared) [] 2 [(1, 0xF0), (2, 0x0F), (15, 1)])) 1 15 = some (0xFF, 0) := by decide

/-- V6: 0x8122. -/
theorem test_and : regsOf (exec (.and 1 2) (mk (ext .borrow .unchanged) [] 2 [(1, 0xF0), (2, 0x3C)])) 1 2 = some (0x30, 0x3C) := by decide

/-- V6: 0x8123. -/
theorem test_xor : regsOf (exec (.xor 1 2) (mk (ext .borrow .unchanged) [] 2 [(1, 0xF0), (2, 0x3C)])) 1 2 = some (0xCC, 0x3C) := by decide

/-- V6: 0x8113. -/
theorem test_xor_self : regsOf (exec (.xor 1 1) (mk (ext .borrow .cleared) [] 2 [(1, 0x5A)])) 1 15 = some (0, 0) := by decide

/-- V6: 5 - 10 wraps, and borrows. -/
theorem test_sub_borrow : regsOf (exec (.sub 1 2) (mk (ext .borrow .unchanged) [] 2 [(1, 5), (2, 10)])) 1 15 = some (251, 1) := by decide

/-- V6: 10 - 5, no borrow, under NOT_BORROW. -/
theorem test_sub_notBorrow :
    regsOf (exec (.sub 1 2) (mk (ext .notBorrow .unchanged) [] 2 [(1, 10), (2, 5)])) 1 15 = some (5, 1) := by decide

/-! One step (V4, P6, P8). -/

/-- V4: reset, no load. -/
theorem test_step_reset : ctlOf (step State.reset) = some (.halted, 2, FaultRecord.empty) := by decide

/-- V4: the last two bytes of memory. -/
theorem test_step_last_word : ctlOf (step (mk base [] 4094 [])) = some (.halted, 4096, FaultRecord.empty) := by decide

/-- V4: the comparison must not overflow. -/
theorem test_step_ip_max : ctlOf (step (mk base [] 65535 [])) = some (.faulted, 65535, ⟨.fetchOutOfBounds, 65535, 0⟩) := by decide

/-- S3: the last byte. -/
theorem test_step_ip_4095 : ctlOf (step (mk base [] 4095 [])) = some (.faulted, 4095, ⟨.fetchOutOfBounds, 4095, 0⟩) := by decide

/-- V4: 0x1200 at 0. -/
theorem test_step_unrecognized :
    ctlOf (step (mk base [(0, 0x12)] 0 [])) = some (.faulted, 2, ⟨.unrecognizedOpcode, 0, 0x1200⟩) := by decide

/-- P6: 0x8015 at 2, in the base machine and under EXT_ALU. -/
theorem test_step_sub_word_in_base :
    ctlOf (step (mk base [(2, 0x80), (3, 0x15)] 2 [(0, 3), (1, 2)])) = some (.faulted, 4, ⟨.unrecognizedOpcode, 2, 0x8015⟩) := by decide

theorem test_step_sub_word_in_ext :
    regsOf (step (mk (ext .borrow .unchanged) [(2, 0x80), (3, 0x15)] 2 [(0, 3), (1, 2)])) 0 15 = some (1, 0) := by decide

/-- P8: an odd load address. -/
theorem test_step_odd_pointer :
    regsOf (step (mk base [(0x201, 0x80), (0x202, 0x14)] 0x201 [(0, 7), (1, 8)])) 0 15 = some (15, 0) := by decide

/-- Each row of the table, placed after reset, is what the next step runs, and it completes. -/
theorem test_withFetchWord_rows :
    ([0x0000, 0x8004, 0x8001, 0x8002, 0x8003, 0x8005] : List Nat).all
      (fun w => ctlOf (step (State.reset.withFetchWord 16 w)) = some (if w = 0 then .halted else .running, 2, FaultRecord.empty)) = true := by
  decide

/-- S2's register values through the placed word. -/
theorem test_withFetchWord_add : regsOf (step ((mk base [] 0 [(0, 250), (1, 10)]).withFetchWord 16 0x8014)) 0 15 = some (4, 1) := by decide

/-! The host (R22, R28, R60). -/

theorem test_codes : Status.running.code = 0 ∧ Status.halted.code = 1 ∧ Status.faulted.code = 2 ∧ FaultCause.none.code = 0 ∧
    FaultCause.fetchOutOfBounds.code = 1 ∧ FaultCause.unrecognizedOpcode.code = 2 ∧ FaultCause.registerIndexOutOfRange.code = 3 := by
  decide

theorem test_host_write_refused_in_run :
    transact (.writeMem 0 1) { core := mk base [] 0 [], started := true } = .refused .hostWriteDuringRun := rfl

theorem test_listing : placeLines 0 [.org 0x201, .instr (.add 0 1), .word 0x8015, .instr .halt] =
    [(0x201, 0x8014), (0x203, 0x8015), (0x205, 0x0000)] ∧ instrText (.add 10 15) = "ADD rA, rF" := by decide

theorem test_memory_store_zero_removes : Memory.store [(3, 1), (5, 2)] 3 0 = [(5, 2)] ∧ Memory.store [(5, 2)] 3 1 = [(3, 1), (5, 2)] := by
  decide

theorem test_memory_wf_refuses : Memory.wf [(3, 0)] = false ∧ Memory.wf [(5, 1), (3, 1)] = false ∧ Memory.wf [(3, 1), (3, 2)] = false ∧
    Memory.wf [(4096, 1)] = false ∧ Memory.wf [(4095, 1)] = true := by decide

/-! Witnesses: for each statement with hypotheses, concrete values that meet all of them, at the boundaries of its clauses. -/

/-- ADD r0, r1 at 0, then HALT. -/
def addState : State := mk base [(0, 0x80), (1, 0x14)] 0 [(0, 250), (1, 10)]

/-- A state that has halted, just past 0x0000 at 0. -/
def haltedState : State := { mk base [] 2 [] with status := .halted }

/-- A state whose fetch has faulted. -/
def fetchFaulted : State := (mk base [] 4095 []).raiseFetchOutOfBounds 4095

/-- A state that has met 0x1200 at 0. -/
def opcodeFaulted : State := (mk base [(0, 0x12)] 2 []).raiseUnrecognized 0 0x1200

theorem witness_PlacedInstructionIsRun :
    State.reset.status = .running ∧ State.reset.ip.toNat ≤ 4094 ∧ State.reset.mem.wf = true := by decide

theorem witness_FetchResultForEveryPointer : (4095 : Word).toNat > 4094 ∧ (4094 : Word).toNat ≤ 4094 := by decide

theorem witness_FetchIsBigEndian : (4094 : Word).toNat ≤ 4094 := by decide

theorem witness_StepRunsDecodedInstruction :
    addState.status = .running ∧ readInstruction addState.mem addState.ip = .word 0x8014 ∧
    decode addState.params.extAlu 0x8014 = .instr (.add 0 1) := by decide

theorem witness_OutOfBoundsFetchFaults : (mk base [] 4095 []).status = .running ∧ (mk base [] 4095 []).ip.toNat > 4094 := by decide

theorem witness_UnrecognizedOpcodeFaults :
    (mk base [(0, 0x12)] 0 []).status = .running ∧ readInstruction (mk base [(0, 0x12)] 0 []).mem 0 = .word 0x1200 ∧
    decode (mk base [(0, 0x12)] 0 []).params.extAlu 0x1200 = .unrecognized 0x1200 := by decide

theorem witness_ExtAluWordsFaultInBaseMachine :
    (mk base [(2, 0x80), (3, 0x15)] 2 []).status = .running ∧ (mk base [(2, 0x80), (3, 0x15)] 2 []).params.extAlu = false ∧
    readInstruction (mk base [(2, 0x80), (3, 0x15)] 2 []).mem 2 = .word 0x8015 ∧ (0x8015 : Word) &&& 0xF00F = 0x8005 ∧
    (0x8011 : Word) &&& 0xF00F = 0x8001 ∧ (0x8012 : Word) &&& 0xF00F = 0x8002 ∧ (0x8013 : Word) &&& 0xF00F = 0x8003 := by decide

theorem witness_EndedStateNeverChanges : haltedState.status ≠ .running ∧ fetchFaulted.status ≠ .running := by decide

theorem witness_PointerAdvancesByTwo :
    (mk base [] 4094 []).status = .running ∧ (mk base [] 4094 []).ip.toNat ≤ 4094 ∧ (mk base [] 4095 []).status = .running ∧
    (mk base [] 4095 []).ip.toNat > 4094 := by decide

theorem witness_HaltsExactlyOnZeroWord : (mk base [] 4094 []).status = .running ∧ addState.status = .running := by decide

theorem witness_FaultsExactlyAndPrecisely : (mk base [(0, 0x12)] 0 []).status = .running ∧ (mk base [] 4095 []).status = .running := by
  decide

theorem witness_RegisterIndexFaultIsUnreachable : State.reset.fault.cause ≠ .registerIndexOutOfRange := by decide

theorem witness_MalformedRegisterIndexIsFatal :
    readInstruction addState.advance.mem (addState.advance.ip - 2) = .word 0x8014 ∧ (15 : Nat) = (15 : RegIx).toNat ∧ 16 ≤ 16 := by decide

/-- The memories differ beyond the fetched bytes. -/
theorem witness_StepReadsOnlyFetchedBytes :
    Memory.byteAt [(0, 0x80), (1, 0x14), (2, 7)] addState.ip.toNat = Memory.byteAt addState.mem addState.ip.toNat ∧
    Memory.byteAt [(0, 0x80), (1, 0x14), (2, 7)] (addState.ip.toNat + 1) = Memory.byteAt addState.mem (addState.ip.toNat + 1) ∧
    Memory.byteAt [(0, 0x80), (1, 0x14), (2, 7)] 2 ≠ Memory.byteAt addState.mem 2 := by decide

theorem witness_HaltWritesStatusOnly :
    (mk base [] 4094 []).status = .running ∧ readInstruction (mk base [] 4094 []).mem (mk base [] 4094 []).ip = .word 0 := by decide

/-- A flag the host set to 200 and an ADD that does not overflow, neither operand being the flag register; the boundary sum 255; and an
overflowing ADD, after which x[2] + x[3] does not overflow. -/
theorem witness_AddFlagIsNotSticky :
    (mk base [] 0 [(0, 254), (1, 1), (15, 200)]).reg 15 = 200 ∧
    ((mk base [] 0 [(0, 254), (1, 1), (15, 200)]).reg 0).toNat + ((mk base [] 0 [(0, 254), (1, 1), (15, 200)]).reg 1).toNat ≤ 255 ∧
    (0 : RegIx) ≠ 15 ∧ (1 : RegIx) ≠ 15 ∧
    ∃ t, exec (.add 0 1) addState = .next t ∧ (t.reg 2).toNat + (t.reg 3).toNat ≤ 255 ∧ t.reg 15 = 1 :=
  ⟨by decide, by decide, by decide, by decide, _, rfl, by decide⟩

theorem witness_AddWritesSumThenCarry : (14 : RegIx) ≠ 15 := by decide

theorem witness_AddCornerCases : (14 : RegIx) ≠ 15 := by decide

theorem witness_AddDependsOnOperandsOnly :
    addState.reg 0 = (mk base [] 9 [(0, 250), (1, 10), (15, 3)]).reg 0 ∧ addState.reg 1 = (mk base [] 9 [(0, 250), (1, 10), (15, 3)]).reg 1 := by
  decide

/-- Each of the three instructions, and both values of LOGIC_FLAG. -/
theorem witness_LogicHandlersWriteResult :
    (∃ v : Byte, v = addState.reg 0 ||| addState.reg 1) ∧ (∃ v : Byte, v = addState.reg 0 &&& addState.reg 1) ∧
    (∃ v : Byte, v = addState.reg 0 ^^^ addState.reg 1) ∧ (mk (ext .borrow .unchanged) [] 0 []).params.logicFlag = .unchanged ∧
    (mk (ext .borrow .cleared) [] 0 []).params.logicFlag = .cleared ∧ (0 : RegIx) ≠ 15 :=
  ⟨⟨_, rfl⟩, ⟨_, rfl⟩, ⟨_, rfl⟩, rfl, rfl, by decide⟩

theorem witness_SubWritesDifferenceThenFlag :
    (mk (ext .borrow .unchanged) [] 0 []).params.subFlag = .borrow ∧ (mk (ext .notBorrow .unchanged) [] 0 []).params.subFlag = .notBorrow ∧
    (14 : RegIx) ≠ 15 := by decide

theorem witness_ExtAluEqualOperands : (14 : RegIx) ≠ 15 := by decide

theorem witness_HandlersFrame :
    (∃ t, exec .halt addState = .next t) ∧ (∃ t, exec (.add 0 1) addState = .next t) ∧ (∃ t, exec (.or 0 1) addState = .next t) ∧
    (∃ t, exec (.and 0 1) addState = .next t) ∧ (∃ t, exec (.xor 0 1) addState = .next t) ∧ (∃ t, exec (.sub 0 1) addState = .next t) ∧
    addState.params.logicFlag = .unchanged ∧ (0 : RegIx) ≠ 15 :=
  ⟨⟨_, rfl⟩, ⟨_, rfl⟩, ⟨_, rfl⟩, ⟨_, rfl⟩, ⟨_, rfl⟩, ⟨_, rfl⟩, rfl, by decide⟩

theorem witness_StepKeepsConsistent : addState.Consistent ∧ ∃ t, step addState = .next t := ⟨⟨by decide, rfl⟩, ⟨_, rfl⟩⟩

/-- HALTED and both kinds of FAULTED states are consistent too. -/
theorem witness_Consistent_ended : haltedState.Consistent ∧ fetchFaulted.Consistent ∧ opcodeFaulted.Consistent :=
  ⟨⟨by decide, rfl, by decide, by decide, by decide⟩, ⟨by decide, .inl ⟨rfl, by decide⟩⟩,
    ⟨by decide, .inr ⟨rfl, by decide, by decide, by decide, by decide⟩⟩⟩

theorem witness_TransactionsKeepConsistent :
    (Session.fresh base).Consistent ∧ (∃ s', transact (.setIp 4095) (Session.fresh base) = .next s') ∧
    ∃ s', transact .step (Session.fresh base) = .next s' := ⟨⟨⟨rfl, rfl⟩, fun _ => rfl⟩, ⟨_, rfl⟩, ⟨_, rfl⟩⟩

/-- Both clauses of the bound, where they meet. -/
theorem witness_EveryRunEndsWithinBound :
    addState.status = .running ∧ (if addState.ip.toNat ≤ 4094 then (4094 - addState.ip.toNat) / 2 + 2 else 1) ≤ 2049 ∧
    (mk base [] 4094 []).status = .running ∧
    (if (mk base [] 4094 []).ip.toNat ≤ 4094 then (4094 - (mk base [] 4094 []).ip.toNat) / 2 + 2 else 1) ≤ 2 ∧
    (mk base [] 4095 []).status = .running ∧
    (if (mk base [] 4095 []).ip.toNat ≤ 4094 then (4094 - (mk base [] 4095 []).ip.toNat) / 2 + 2 else 1) ≤ 1 := by decide

/-- R71's bound at the boundary values: P7's 2049 steps from 0, and 1 step when the first fetch is out of bounds. -/
theorem test_runBound : runBound 0 = 2049 ∧ runBound 4093 = 2 ∧ runBound 4094 = 2 ∧ runBound 4095 = 1 := by decide

/-- n = 1 at 0, and n = 0 at the last address. -/
theorem witness_SequentialRunReachesHalt :
    (addState.status = .running ∧ addState.ip.toNat + 2 * 1 ≤ 4094 ∧
      readInstruction addState.mem (addState.ip + BitVec.ofNat 16 (2 * 0)) = .word 0x8014 ∧
      decode addState.params.extAlu 0x8014 = .instr (.add 0 1) ∧ Instr.add 0 1 ≠ .halt ∧
      readInstruction addState.mem (addState.ip + BitVec.ofNat 16 (2 * 1)) = .word 0) ∧
    (mk base [] 4094 []).status = .running ∧ (mk base [] 4094 []).ip.toNat + 2 * 0 ≤ 4094 ∧
    readInstruction (mk base [] 4094 []).mem ((mk base [] 4094 []).ip + BitVec.ofNat 16 (2 * 0)) = .word 0 := by decide

theorem witness_MemWriteThenMemRead :
    Memory.wf [(4095, 1)] = true ∧ 4094 + ([7, 8] : List Byte).length ≤ 4096 ∧ 4096 < 4095 + ([7, 8] : List Byte).length := by decide

theorem witness_CanonicalMemoryIsExtensional :
    Memory.wf [(4095, 1)] = true ∧ Memory.wf (Memory.store (Memory.store [] 4095 1) 3 0) = true ∧
    ∀ a < 4096, Memory.byteAt [(4095, 1)] a = Memory.byteAt (Memory.store (Memory.store [] 4095 1) 3 0) a :=
  ⟨by decide, by decide, fun _ _ => rfl⟩

theorem witness_HostWritesOnlyBeforeFirstStep :
    (Session.fresh base).started = false ∧ (Session.fresh base).core.mem.wf = true ∧
    ({ Session.fresh base with started := true } : Session).started = true ∧ 4095 < 4096 := by decide

theorem witness_HostIndexOutOfRangeIsRefused : 4096 ≤ 4096 ∧ 16 ≤ 16 ∧ 4095 < 4096 ∧ (Session.fresh base).started = false := by decide

theorem witness_LoadedImageIsFetched :
    (Session.fresh base).started = false ∧ (Session.fresh base).core.mem.wf = true ∧ 4094 + 2 * ([0x8014] : List Word).length ≤ 4096 ∧
    ([0x8014] : List Word)[0]? = some 0x8014 := by decide

theorem witness_BootMeetsLaunchPremises : 4094 + 2 * ([0x8014] : List Word).length ≤ 4096 := by decide

theorem witness_CoresShareNoState :
    ∃ cs, transactAt 1 .step [Session.fresh base, Session.fresh base, Session.fresh (ext .borrow .cleared)] = .next cs := ⟨_, rfl⟩

end Sys2Proof.Tests
end

section
/-! PROOF. Every transaction of the host keeps a session consistent (R6, R28, R160): first the step and, by induction, the run;
then the host's own moves, from the inversion of a transaction. -/

namespace Sys2Proof.Machine

/-! Consistency, status by status. -/

theorem State.consistent_of_running {s : State} (h : s.status = .running) :
    s.Consistent ↔ s.mem.wf = true ∧ s.fault = FaultRecord.empty := by
  rw [State.Consistent, h]

theorem State.consistent_of_halted {s : State} (h : s.status = .halted) :
    s.Consistent ↔ s.mem.wf = true ∧ s.fault = FaultRecord.empty ∧ s.HaltRecorded := by
  rw [State.Consistent, h]

theorem State.consistent_of_faulted {s : State} (h : s.status = .faulted) :
    s.Consistent ↔ s.mem.wf = true ∧ s.FaultRecorded := by
  rw [State.Consistent, h]

theorem State.resetUnder_consistent (p : Params) : (State.resetUnder p).Consistent :=
  (State.consistent_of_running (State.resetUnder_status p)).mpr ⟨rfl, State.resetUnder_fault p⟩

/-! The four things a step of a RUNNING core can do. -/

/-- The pointer of a fetch out of bounds is recorded unadvanced (R121). -/
theorem State.raiseFetchOutOfBounds_consistent {s : State} (hm : s.mem.wf = true) (hp : s.ip.toNat > 4094) :
    (s.raiseFetchOutOfBounds s.ip).Consistent :=
  (State.consistent_of_faulted rfl).mpr ⟨hm, .inl ⟨rfl, hp⟩⟩

/-- No step writes memory, so the rejected word is still at the address recorded (R122). -/
theorem State.raiseUnrecognized_consistent {s : State} {w : Word} (hm : s.mem.wf = true)
    (hw : readInstruction s.mem s.ip = .word w) (hu : decode s.params.extAlu w = .unrecognized w) :
    (s.advance.raiseUnrecognized s.ip w).Consistent :=
  (State.consistent_of_faulted rfl).mpr ⟨hm, .inr ⟨rfl, readInstruction_word hw, rfl, hw, hu⟩⟩

/-- The advance does not wrap, so the word 0x0000 stands 2 before the pointer (R18, R74). -/
theorem State.advance_halt_consistent {s : State} (hm : s.mem.wf = true) (hf : s.fault = FaultRecord.empty)
    (hw : readInstruction s.mem s.ip = .word 0) : s.advance.halt.Consistent := by
  have hip : s.ip.toNat ≤ 4094 := readInstruction_word hw
  have hadv : s.advance.halt.ip.toNat = s.ip.toNat + 2 := advance_toNat hip
  refine (State.consistent_of_halted s.advance.halt_status).mpr ⟨hm, hf, by omega, by omega, ?_⟩
  simpa [advance_sub] using hw

/-- A handler that writes registers only leaves all that consistency of a RUNNING core speaks of. -/
theorem State.SameButDestAndFlag.consistent {s t : State} {x : RegIx} (h : s.SameButDestAndFlag t x)
    (hr : s.status = .running) (hm : s.mem.wf = true) (hf : s.fault = FaultRecord.empty) : t.Consistent := by
  obtain ⟨-, -, hmem, -, hstatus, hfault, -⟩ := h
  exact (State.consistent_of_running (hstatus.trans hr)).mpr ⟨hmem ▸ hm, hfault.trans hf⟩

theorem step_keeps_consistent {s t : State} (hs : s.Consistent) (h : step s = .next t) : t.Consistent := by
  obtain ⟨t', ht', hcases⟩ := step_cases s
  obtain rfl : t' = t := Host.Outcome.next.inj (ht'.symm.trans h)
  rcases hcases with ⟨-, rfl⟩ | ⟨hr, hp, rfl⟩ | ⟨hr, -, w, hw, hdispatch⟩
  · exact hs
  · obtain ⟨hm, -⟩ := hs
    exact State.raiseFetchOutOfBounds_consistent hm hp
  · obtain ⟨hm, hf⟩ := (State.consistent_of_running hr).mp hs
    rcases hdispatch with ⟨hu, rfl⟩ | ⟨i, hi, -, ⟨rfl, rfl⟩ | ⟨-, x, hframe⟩⟩
    · exact State.raiseUnrecognized_consistent hm hw hu
    · obtain rfl := decode_halt hi
      exact State.advance_halt_consistent hm hf hw
    · exact hframe.consistent hr hm hf

theorem run_keeps_consistent {s t : State} (hs : s.Consistent) (h : run s = .next t) : t.Consistent :=
  runFor_induction (fun _ _ _ hc hstep => step_keeps_consistent hc hstep) _ hs h

/-! The transactions. -/

/-- `s.HostWritten t`: the host's write of one byte, one register or the pointer takes the core from `s` to `t` (R6, R28). -/
inductive State.HostWritten (s : State) : State → Prop
  | mem {a : Nat} (v : Byte) (ha : a < 4096) : HostWritten s { s with mem := Memory.store s.mem a v }
  | reg (i : RegIx) (v : Byte) : HostWritten s (s.setReg i v)
  | ip (p : Word) : HostWritten s { s with ip := p }

theorem State.HostWritten.status_fault {s t : State} (h : s.HostWritten t) : t.status = s.status ∧ t.fault = s.fault := by
  cases h with
  | mem v ha => exact ⟨rfl, rfl⟩
  | reg i v => exact ⟨rfl, rfl⟩
  | ip p => exact ⟨rfl, rfl⟩

theorem State.HostWritten.mem_wf {s t : State} (h : s.HostWritten t) (hm : s.mem.wf = true) : t.mem.wf = true := by
  cases h with
  | mem v ha => exact Memory.store_wf v hm ha
  | reg i v => exact hm
  | ip p => exact hm

theorem State.HostWritten.keeps_consistent {s t : State} (h : s.HostWritten t) (hr : s.status = .running) (hs : s.Consistent) :
    t.status = .running ∧ t.Consistent := by
  obtain ⟨hm, hf⟩ := (State.consistent_of_running hr).mp hs
  obtain ⟨hstatus, hfault⟩ := h.status_fault
  have hr' : t.status = .running := hstatus.trans hr
  exact ⟨hr', (State.consistent_of_running hr').mpr ⟨h.mem_wf hm, hfault.trans hf⟩⟩

/-- The next sessions a transaction can answer: Reset's; a host write's, before the first Step; or the one after a Step or a
Run. -/
inductive Session.Moved (s : Session) : Session → Prop
  | reset : Moved s (Session.fresh s.core.params)
  | write {t : State} (hs : s.started = false) (h : s.core.HostWritten t) : Moved s { s with core := t }
  | step {t : State} (h : Machine.step s.core = .next t) : Moved s { core := t, started := true }
  | run {t : State} (h : Machine.run s.core = .next t) : Moved s { core := t, started := true }

/-- An answer to the host in session `s`: a refusal, or a session that `s` moves to; never a fault of the model. -/
def Session.Answers (s : Session) (o : Host.Outcome Session Fault Refusal) : Prop :=
  (∃ r, o = .refused r) ∨ ∃ s', o = .next s' ∧ s.Moved s'

/-- A host write after the first Step is refused, so only the one before it is left to look at (R28). -/
theorem Session.answers_hostWrite {s : Session} (f : State → Host.Outcome State Fault Refusal)
    (h : s.started = false → s.Answers (s.hostWrite f)) : s.Answers (s.hostWrite f) := by
  cases hs : s.started with
  | true => exact .inl ⟨_, hostWrite_started f hs⟩
  | false => exact h hs

/-- HostWriteMem out of range (R138). -/
theorem transact_writeMem_outOfRange {s : Session} {a : Nat} (v : Byte) (hs : s.started = false) (ha : 4096 ≤ a) :
    transact (.writeMem a v) s = .refused (.hostAddressOutOfRange a) := by
  have hb : ¬ a < Config.memSize := by simp only [Config.memSize]; omega
  simp only [transact, Session.hostWrite, hs, hostWriteMem, if_neg hb]
  rfl

/-- HostWriteReg out of range (R138). -/
theorem transact_writeReg_outOfRange {s : Session} {i : Nat} (v : Byte) (hs : s.started = false) (hi : 16 ≤ i) :
    transact (.writeReg i v) s = .refused (.hostRegisterOutOfRange i) := by
  simp only [transact, Session.hostWrite, hs, hostWriteReg, regIndex_eq_none.mpr hi]
  rfl

/-- Everything a transaction can do. -/
theorem transact_answers (tr : Transaction) (s : Session) : s.Answers (transact tr s) := by
  cases tr with
  | reset => exact .inr ⟨_, transact_reset s, .reset⟩
  | writeMem a v =>
    refine Session.answers_hostWrite (hostWriteMem a v) fun hs => ?_
    by_cases ha : a < 4096
    · exact .inr ⟨_, transact_writeMem v hs ha, .write hs (.mem v ha)⟩
    · exact .inl ⟨_, transact_writeMem_outOfRange v hs (by omega)⟩
  | writeReg i v =>
    refine Session.answers_hostWrite (hostWriteReg i v) fun hs => ?_
    cases hi : regIndex i with
    | some x =>
      obtain rfl := regIndex_eq_some.mp hi
      exact .inr ⟨_, transact_writeReg x v hs, .write hs (.reg x v)⟩
    | none => exact .inl ⟨_, transact_writeReg_outOfRange v hs (regIndex_eq_none.mp hi)⟩
  | setIp p =>
    exact Session.answers_hostWrite (hostSetIp p) fun hs => .inr ⟨_, transact_setIp p hs, .write hs (.ip p)⟩
  | step =>
    obtain ⟨t, ht, -⟩ := step_cases s.core
    exact .inr ⟨_, transact_step s ht, .step ht⟩
  | run =>
    obtain ⟨t, ht⟩ := runFor_next (runBound s.core.ip) s.core
    exact .inr ⟨_, transact_run s ht, .run ht⟩

theorem Session.fresh_consistent (p : Params) : (Session.fresh p).Consistent :=
  ⟨State.resetUnder_consistent p, fun _ => State.resetUnder_status p⟩

theorem Session.Moved.keeps_consistent {s s' : Session} (h : s.Moved s') (hs : s.Consistent) : s'.Consistent := by
  obtain ⟨hcore, hphase⟩ := hs
  cases h with
  | reset => exact Session.fresh_consistent _
  | write hstarted hwrite =>
    obtain ⟨hr, hc⟩ := hwrite.keeps_consistent (hphase hstarted) hcore
    exact ⟨hc, fun _ => hr⟩
  | step h => exact ⟨step_keeps_consistent hcore h, nofun⟩
  | run h => exact ⟨run_keeps_consistent hcore h, nofun⟩

/-- Settles O33: a transaction is refused or moves the session as `Session.Moved` says, and each such move keeps consistency. -/
theorem transactionsKeepConsistent : Obligations.TransactionsKeepConsistent := by
  intro tr s hs
  rcases transact_answers tr s with ⟨r, hr⟩ | ⟨s₁, hs₁, hmove⟩
  · rw [hr]
    exact ⟨nofun, nofun⟩
  · rw [hs₁]
    refine ⟨fun s' h => ?_, nofun⟩
    obtain rfl := Host.Outcome.next.inj h
    exact hmove.keeps_consistent hs

end Sys2Proof.Machine
end

section
/-! PROOF. The state of a core (10_state.md): the invariant of every step, the pointer's advance, the frame of the instructions,
the canonical form of memory, the values at reset, the host's writes, and several cores side by side. -/

namespace Sys2Proof.Machine

/-- Settles O32: `step_keeps_consistent`, which goes through the four things `step_cases` says a step can do. -/
theorem stepKeepsConsistent : Obligations.StepKeepsConsistent := fun _ _ hs h => step_keeps_consistent hs h

/-! The pointer (R17). -/

/-- No instruction touches the pointer (R73, R96). -/
theorem exec_ip {i : Instr} {s t : State} (h : exec i s = .next t) : t.ip = s.ip := by
  obtain ⟨t', ht', hcases⟩ := exec_cases i s
  obtain rfl : t' = t := Host.Outcome.next.inj (ht'.symm.trans h)
  rcases hcases with ⟨-, rfl⟩ | ⟨-, x, -, -, -, hip, -⟩
  · exact s.halt_ip
  · exact hip

/-- A word fetched moves the pointer past it, whatever the word is: an instruction in force or an unrecognized opcode. -/
theorem step_ip_of_fetched {s t : State} (hr : s.status = .running) (hp : s.ip.toNat ≤ 4094) (h : step s = .next t) :
    t.ip = s.ip + 2 := by
  obtain ⟨t', ht', hcases⟩ := step_cases s
  obtain rfl : t' = t := Host.Outcome.next.inj (ht'.symm.trans h)
  rcases hcases with ⟨hended, -⟩ | ⟨-, hout, -⟩ | ⟨-, -, w, -, ⟨-, rfl⟩ | ⟨i, -, hexec, -⟩⟩
  · exact absurd hr hended
  · omega
  · rfl
  · exact exec_ip hexec

/-- Settles O14: the fetch is out of bounds exactly above 4094; up to there the advance does not wrap. -/
theorem pointerAdvancesByTwo : Obligations.PointerAdvancesByTwo := by
  intro s hr
  by_cases hp : s.ip.toNat ≤ 4094
  · obtain ⟨t, ht, -⟩ := step_cases s
    refine ⟨t, ht, fun _ => ?_, fun hout => absurd hp (by omega)⟩
    rw [step_ip_of_fetched hr hp ht, advance_toNat hp]
  · exact ⟨_, step_outOfBounds hr (by omega), fun h => absurd h hp, fun _ => rfl⟩

/-! The frame of the instructions (R14, R107). -/

/-- An instruction on a pair of registers writes its first operand and the flag register, and nothing else (R85, R107). -/
theorem exec_sameButDestAndFlag {x y : RegIx} {s t : State} {i : Instr}
    (hi : i = .add x y ∨ i = .or x y ∨ i = .and x y ∨ i = .xor x y ∨ i = .sub x y) (h : exec i s = .next t) :
    s.SameButDestAndFlag t x := by
  rcases hi with rfl | rfl | rfl | rfl | rfl <;> obtain rfl := Host.Outcome.next.inj h
  · exact s.sameBut_setReg_flag x _ _
  · exact s.sameBut_logicOp _ x y
  · exact s.sameBut_logicOp _ x y
  · exact s.sameBut_logicOp _ x y
  · exact s.sameBut_setReg_flag x _ _

/-- With LOGIC_FLAG = UNCHANGED a logic handler writes the destination alone (R102, R106). -/
theorem State.logicOp_flag_of_unchanged {s : State} (f : Byte → Byte → Byte) {x : RegIx} (y : RegIx)
    (hp : s.params.logicFlag = .unchanged) (hx : x ≠ 15) : (s.logicOp f x y).reg 15 = s.reg 15 := by
  rw [State.logicOp_eq, hp]
  exact s.reg_setReg_ne _ hx.symm

theorem exec_logic_flag_of_unchanged {x y : RegIx} {s t : State} {i : Instr}
    (hi : i = .or x y ∨ i = .and x y ∨ i = .xor x y) (h : exec i s = .next t)
    (hp : s.params.logicFlag = .unchanged) (hx : x ≠ 15) : t.reg 15 = s.reg 15 := by
  rcases hi with rfl | rfl | rfl <;> obtain rfl := Host.Outcome.next.inj h <;>
    exact State.logicOp_flag_of_unchanged _ y hp hx

/-- Settles O30: HALT sets the status only; the other five write the destination and the flag register only. -/
theorem handlersFrame : Obligations.HandlersFrame := by
  refine ⟨fun s t h => ?_, fun x y s t i hi h => ?_⟩
  · obtain rfl := Host.Outcome.next.inj h
    exact ⟨s.halt_reg, fun _ => rfl, s.halt_ip, s.halt_fault, s.halt_params⟩
  · obtain ⟨hregs, hbytes, -, hip, hstatus, hfault, hparams⟩ := exec_sameButDestAndFlag hi h
    exact ⟨hregs, fun hlogic => exec_logic_flag_of_unchanged hlogic h, hbytes, hip, hstatus, hfault, hparams⟩

/-! The canonical form of memory (R24, R30). -/

@[simp] theorem Memory.byteAt_cons_same (a : Nat) (v : Byte) (m : Memory) : Memory.byteAt ((a, v) :: m) a = v := by
  rw [Memory.byteAt, if_pos rfl]

theorem Memory.byteAt_cons_ne {a b : Nat} (v : Byte) (m : Memory) (h : b ≠ a) :
    Memory.byteAt ((a, v) :: m) b = Memory.byteAt m b := by
  rw [Memory.byteAt, if_neg h.symm]

/-- A listed byte is read as something else in every canonical memory that lists nothing so low. -/
theorem Memory.byteAt_head_ne {lo lo' a : Nat} {v : Byte} {m m' : Memory} (hm : Memory.wfFrom lo ((a, v) :: m) = true)
    (hm' : Memory.wfFrom lo' m' = true) (h : a < lo') : Memory.byteAt ((a, v) :: m) a ≠ Memory.byteAt m' a := by
  obtain ⟨-, -, hv, -⟩ := Memory.wfFrom_cons.mp hm
  rwa [Memory.byteAt_cons_same, Memory.byteAt_below hm' h]

/-- In the canonical form the bound may be raised to the first address listed. -/
theorem Memory.wfFrom_head {lo a : Nat} {v : Byte} {m : Memory} (hm : Memory.wfFrom lo ((a, v) :: m) = true) :
    Memory.wfFrom a ((a, v) :: m) = true := by
  rw [Memory.wfFrom_cons] at hm ⊢
  exact ⟨Nat.le_refl a, hm.2⟩

/-- Canonical memories read alike only if their first entries are the same; without them they still read alike. -/
theorem Memory.ext_of_wfFrom {m m' : Memory} {lo lo' : Nat} (hm : Memory.wfFrom lo m = true) (hm' : Memory.wfFrom lo' m' = true)
    (h : ∀ c < 4096, Memory.byteAt m c = Memory.byteAt m' c) : m = m' := by
  induction m generalizing m' lo lo' with
  | nil =>
    cases m' with
    | nil => rfl
    | cons e' m' =>
      obtain ⟨b, u⟩ := e'
      obtain ⟨-, hb, -, -⟩ := Memory.wfFrom_cons.mp hm'
      exact absurd (h b hb).symm (Memory.byteAt_head_ne hm' (lo' := b + 1) rfl (Nat.lt_succ_self b))
  | cons e m ih =>
    obtain ⟨a, v⟩ := e
    obtain ⟨-, ha, -, hrest⟩ := Memory.wfFrom_cons.mp hm
    cases m' with
    | nil => exact absurd (h a ha) (Memory.byteAt_head_ne hm (lo' := a + 1) rfl (Nat.lt_succ_self a))
    | cons e' m' =>
      obtain ⟨b, u⟩ := e'
      obtain ⟨-, hb, -, hrest'⟩ := Memory.wfFrom_cons.mp hm'
      rcases lt_trichotomy a b with hab | rfl | hab
      · exact absurd (h a ha) (Memory.byteAt_head_ne hm (Memory.wfFrom_head hm') hab)
      · have hv : v = u := by simpa using h a ha
        have htail : ∀ c < 4096, Memory.byteAt m c = Memory.byteAt m' c := by
          intro c hc
          by_cases hca : c = a
          · rw [Memory.byteAt_below hrest (by omega), Memory.byteAt_below hrest' (by omega)]
          · simpa only [Memory.byteAt_cons_ne _ _ hca] using h c hc
        rw [hv, ih hrest hrest' htail]
      · exact absurd (h b hb).symm (Memory.byteAt_head_ne hm' (Memory.wfFrom_head hm) hab)

/-- Settles O37: `Memory.ext_of_wfFrom` at the bound 0 of the canonical form. -/
theorem canonicalMemoryIsExtensional : Obligations.CanonicalMemoryIsExtensional := fun _ _ => Memory.ext_of_wfFrom

/-! Reset (R26). -/

/-- Settles O31: the reset values, which are those of a fresh session. -/
theorem resetIsConsistent : Obligations.ResetIsConsistent :=
  ⟨State.resetUnder_consistent Config.base, fun p => ⟨State.resetUnder_consistent p, Session.fresh_consistent p⟩⟩

/-- Settles O38: the base machine's reset, field by field. -/
theorem resetValues : Obligations.ResetValues :=
  ⟨State.resetUnder_reg Config.base, fun _ => rfl, State.resetUnder_ip Config.base, State.resetUnder_status Config.base,
    State.resetUnder_fault Config.base, rfl⟩

/-! The host's writes (R28, R33, R155). -/

/-- A write of a register changes nothing that is no register. -/
theorem State.sameButRegs_setReg (s : State) (i : RegIx) (v : Byte) : s.SameButRegs (s.setReg i v) :=
  (s.sameBut_setReg i v).2

/-- Settles O41: the phase decides; before the first Step each write is the one store, register write or pointer it names. -/
theorem hostWritesOnlyBeforeFirstStep : Obligations.HostWritesOnlyBeforeFirstStep := by
  intro s
  constructor
  · intro hs a i v p
    exact ⟨hostWrite_started (hostWriteMem a v) hs, hostWrite_started (hostWriteReg i v) hs, hostWrite_started (hostSetIp p) hs⟩
  · intro hs hm
    refine ⟨fun a v ha => ?_, fun i v => ?_, fun p => transact_setIp p hs⟩
    · exact ⟨_, transact_writeMem v hs ha, Memory.byteAt_store_same a v hm, fun b hb => Memory.byteAt_store_ne _ v hb⟩
    · exact ⟨_, transact_writeReg i v hs, s.core.reg_setReg_same i v, fun j hj => s.core.reg_setReg_ne v hj,
        s.core.sameButRegs_setReg i v⟩

/-! Several cores (R29). -/

/-- A transaction with core `i` answers a next list only when that core is there and makes the transaction; the list then holds
its new session in its place. -/
theorem transactAt_next {i : Nat} {tr : Transaction} {cores cores' : List Session} (h : transactAt i tr cores = .next cores') :
    ∃ s s', cores[i]? = some s ∧ transact tr s = .next s' ∧ cores' = cores.set i s' := by
  rw [transactAt] at h
  cases hs : cores[i]? with
  | none => rw [hs] at h; cases h
  | some s =>
    simp only [hs] at h
    cases ht : transact tr s with
    | next s' => rw [ht] at h; exact ⟨s, s', rfl, ht, (Host.Outcome.next.inj h).symm⟩
    | fault r => rw [ht] at h; cases h
    | refused r => rw [ht] at h; cases h

/-- Settles O45: only the named core's place in the list is written. -/
theorem coresShareNoState : Obligations.CoresShareNoState := by
  intro i tr cores cores' h
  obtain ⟨s, s', hs, ht, rfl⟩ := transactAt_next h
  obtain ⟨hi, -⟩ := List.getElem?_eq_some_iff.mp hs
  exact ⟨List.length_set, fun j hj => List.getElem?_set_ne hj.symm, s, s', hs, List.getElem?_set_self hi, ht⟩

end Sys2Proof.Machine
end

section
/-! PROOF. Memory (20_memory.md): a wide write read back, the fetch as two big-endian byte reads, the constancy of memory along a
run, and a step's independence of every byte it does not fetch. -/

namespace Sys2Proof.Machine

/-! MemRead and MemWrite (R32, R33). -/

theorem memRead_of_le {m : Memory} {a n : Nat} (h : a + n ≤ 4096) :
    memRead m a n = .ok ((List.range n).map fun k => Memory.byteAt m (a + k)) := if_pos h

theorem memRead_of_gt {m : Memory} {a n : Nat} (h : 4096 < a + n) : memRead m a n = .error (.memoryIndexOutOfRange a) :=
  if_neg (Nat.not_le.mpr h)

theorem memWrite_of_le {m : Memory} {a : Nat} {vs : List Byte} (h : a + vs.length ≤ 4096) :
    memWrite m a vs = .ok (Memory.storeAll m a vs) := if_pos h

theorem memWrite_of_gt {m : Memory} {a : Nat} {vs : List Byte} (h : 4096 < a + vs.length) :
    memWrite m a vs = .error (.memoryIndexOutOfRange a) := if_neg (Nat.not_le.mpr h)

/-- A wide read where a wide write was made gives the bytes written, in their order. -/
theorem memRead_storeAll {m : Memory} {a : Nat} {vs : List Byte} (hm : m.wf = true) (h : a + vs.length ≤ 4096) :
    memRead (Memory.storeAll m a vs) a vs.length = .ok vs := by
  rw [memRead_of_le h]
  refine congrArg Except.ok (List.ext_getElem (by simp) fun k _ hk => ?_)
  simpa using Memory.byteAt_storeAll vs hm h hk

/-- Settles O36: in bounds the write is `Memory.storeAll`; out of bounds the check comes first in both operations. -/
theorem memWriteThenMemRead : Obligations.MemWriteThenMemRead := by
  intro m a vs hm
  refine ⟨fun h => ?_, fun h => ⟨memWrite_of_gt h, memRead_of_gt h⟩⟩
  exact ⟨_, memWrite_of_le h, Memory.storeAll_wf vs hm h, memRead_storeAll hm h, fun _ hb => Memory.byteAt_storeAll_ne m vs hb⟩

/-! The fetch (R34). -/

/-- Joining two bytes is shifting the first past the second. -/
theorem wordOfBytes_eq_shift_or (hi lo : Byte) : wordOfBytes hi lo = (hi.setWidth 16 <<< 8) ||| lo.setWidth 16 :=
  (BitVec.setWidth_eq (hi ++ lo)).symm.trans BitVec.setWidth_append_eq_shiftLeft_setWidth_or

/-- The nibbles of a word are the halves of its bytes (R34, R51). -/
theorem split_wordOfBytes (hi lo : Byte) :
    Nibbles.split (wordOfBytes hi lo) =
      { c := hi.extractLsb' 4 4, x := hi.extractLsb' 0 4, y := lo.extractLsb' 4 4, d := lo.extractLsb' 0 4 } := by
  simp only [Nibbles.split, wordOfBytes, Nibbles.mk.injEq]
  exact ⟨BitVec.extractLsb'_append_eq_of_le (by decide), BitVec.extractLsb'_append_eq_of_le (by decide),
    BitVec.extractLsb'_append_eq_of_add_le (by decide), BitVec.extractLsb'_append_eq_of_add_le (by decide)⟩

/-- Settles O8: the fetch is two MemReads joined by `wordOfBytes`, whose bytes are the two read. -/
theorem fetchIsBigEndian : Obligations.FetchIsBigEndian := by
  intro m a ha
  obtain ⟨hi, lo, hhi, hlo, hw⟩ := readInstruction_memRead (m := m) ha
  refine ⟨hi, lo, _, hhi, hlo, hw, wordOfBytes_eq_shift_or hi lo, wordOfBytes_hiByte hi lo, wordOfBytes_loByte hi lo, ?_⟩
  simp only [split_wordOfBytes, and_self]

/-! What a run leaves constant (R18, R42). -/

/-- No instruction writes memory or a parameter. -/
theorem exec_mem_params {i : Instr} {s t : State} (h : exec i s = .next t) : t.mem = s.mem ∧ t.params = s.params := by
  obtain ⟨t', ht', hcases⟩ := exec_cases i s
  obtain rfl : t' = t := Host.Outcome.next.inj (ht'.symm.trans h)
  rcases hcases with ⟨-, rfl⟩ | ⟨-, x, -, -, hmem, -, -, -, hparams⟩
  · exact ⟨s.halt_mem, s.halt_params⟩
  · exact ⟨hmem, hparams⟩

/-- No step does either: beside executing an instruction it only advances the pointer or records a fault. -/
theorem step_mem_params {s t : State} (h : step s = .next t) : t.mem = s.mem ∧ t.params = s.params := by
  obtain ⟨t', ht', hcases⟩ := step_cases s
  obtain rfl : t' = t := Host.Outcome.next.inj (ht'.symm.trans h)
  rcases hcases with ⟨-, rfl⟩ | ⟨-, -, rfl⟩ | ⟨-, -, w, -, ⟨-, rfl⟩ | ⟨i, -, hexec, -⟩⟩
  · exact ⟨rfl, rfl⟩
  · exact ⟨rfl, rfl⟩
  · exact ⟨rfl, rfl⟩
  · exact exec_mem_params (s := s.advance) hexec

/-- The pointer moves by 2 or not at all, so it stays even or odd (R18). -/
theorem step_ip_parity {s t : State} (hr : s.status = .running) (h : step s = .next t) :
    t.ip.toNat % 2 = s.ip.toNat % 2 := by
  obtain ⟨t', ht', hin, hout⟩ := pointerAdvancesByTwo s hr
  obtain rfl : t' = t := Host.Outcome.next.inj (ht'.symm.trans h)
  rcases Nat.lt_or_ge 4094 s.ip.toNat with hp | hp
  · rw [hout hp]
  · rw [hin hp, Nat.add_mod_right]

/-- What every state of a run has in common with the state it began in. -/
def State.SameMemoryAndParity (s t : State) : Prop :=
  t.mem = s.mem ∧ t.params = s.params ∧ t.ip.toNat % 2 = s.ip.toNat % 2

theorem State.SameMemoryAndParity.step {s t u : State} (hr : t.status = .running) (h : s.SameMemoryAndParity t)
    (hu : Machine.step t = .next u) : s.SameMemoryAndParity u := by
  obtain ⟨hmem, hparams, hparity⟩ := h
  obtain ⟨hmem', hparams'⟩ := step_mem_params hu
  exact ⟨hmem'.trans hmem, hparams'.trans hparams, (step_ip_parity hr hu).trans hparity⟩

/-- Settles O16: `State.SameMemoryAndParity` is kept by every step, so by a run. -/
theorem runKeepsMemoryAndParity : Obligations.RunKeepsMemoryAndParity := by
  intro k s
  obtain ⟨t, ht⟩ := runFor_next k s
  have hsame : s.SameMemoryAndParity t := runFor_induction (fun _ _ => .step) k ⟨rfl, rfl, rfl⟩ ht
  obtain ⟨hmem, hparams, hparity⟩ := hsame
  exact ⟨t, ht, hmem, fun a => by rw [hmem], hparams, hparity⟩

/-! A step reads the two bytes it fetches only (R31, R42). -/

/-- The fetch depends on its two bytes alone. -/
theorem readInstruction_congr {m m' : Memory} {p : Word} (h₀ : Memory.byteAt m p.toNat = Memory.byteAt m' p.toNat)
    (h₁ : Memory.byteAt m (p.toNat + 1) = Memory.byteAt m' (p.toNat + 1)) : readInstruction m p = readInstruction m' p := by
  simp only [readInstruction, h₀, h₁]

/-- No instruction reads memory: with any other it does the same to everything else. -/
theorem exec_withMem {i : Instr} {s t : State} (m : Memory) (h : exec i s = .next t) :
    exec i { s with mem := m } = .next { t with mem := m } := by
  cases i <;> obtain rfl := Host.Outcome.next.inj h <;> rfl

theorem dispatchWord_withMem {s t : State} {a w : Word} (m : Memory) (h : dispatchWord s a w = .next t) :
    dispatchWord { s with mem := m } a w = .next { t with mem := m } := by
  cases hd : decode s.params.extAlu w with
  | instr i =>
    rw [dispatchWord_instr hd] at h
    exact (dispatchWord_instr (s := { s with mem := m }) hd).trans (exec_withMem m h)
  | unrecognized v =>
    obtain rfl := decode_unrecognized hd
    rw [dispatchWord_unrecognized hd] at h
    obtain rfl := Host.Outcome.next.inj h
    exact dispatchWord_unrecognized hd

theorem step_withMem {s t : State} {m : Memory} (hm : readInstruction m s.ip = readInstruction s.mem s.ip)
    (h : step s = .next t) : step { s with mem := m } = .next { t with mem := m } := by
  by_cases hr : s.status = .running
  · cases hw : readInstruction s.mem s.ip with
    | outOfBounds a =>
      obtain ⟨-, hp⟩ := readInstruction_outOfBounds hw
      rw [step_outOfBounds hr hp] at h
      obtain rfl := Host.Outcome.next.inj h
      exact step_outOfBounds hr hp
    | word w =>
      rw [step_word hr hw] at h
      exact (step_word (s := { s with mem := m }) hr (hm.trans hw)).trans (dispatchWord_withMem m h)
  · rw [step_of_ended hr] at h
    obtain rfl := Host.Outcome.next.inj h
    exact step_of_ended hr

/-- Settles O21: the fetch answers the same, and what follows it reads no memory. -/
theorem stepReadsOnlyFetchedBytes : Obligations.StepReadsOnlyFetchedBytes := by
  intro s m h₀ h₁
  obtain ⟨t, ht, -⟩ := step_cases s
  exact ⟨t, ht, step_withMem (readInstruction_congr h₀ h₁) ht⟩

end Sys2Proof.Machine
end

section
/-! PROOF. Encoding (30_encoding.md, R101): decode and encode as inverses of each other, the fields of a word by shift and mask, the
opcode map of the base machine with its counts, and an instruction placed where the next step fetches. -/

namespace Sys2Proof

/-! Decode and encode (R52, R53, R101). -/

theorem decode_encode {ext : Bool} {i : Instr} (h : i.wellFormed ext = true) : decode ext (encode i) = .instr i := by
  cases i with
  | halt => exact decode_zero ext
  | add x y => simp [encode, decode_join]
  | or x y | and x y | xor x y | sub x y =>
    obtain rfl : ext = true := h
    simp [encode, decode_join]

/-- EXT_ALU = true has every row (R101). -/
theorem wellFormed_true (i : Instr) : i.wellFormed true = true := Bool.or_true _

/-- No two instructions share a word (R53). -/
theorem encode_injective : Function.Injective encode := by
  intro i j h
  have hdecoded : Decoded.instr i = .instr j :=
    (decode_encode (wellFormed_true i)).symm.trans (h ▸ decode_encode (wellFormed_true j))
  exact Decoded.instr.inj hdecoded

/-- A word is its register fields between the nibbles c and d of its row. -/
theorem Nibbles.join_row {w : Word} {c d : Nibble} (h : (Nibbles.split w).c = c ∧ (Nibbles.split w).d = d) :
    Nibbles.join ⟨c, (Nibbles.split w).x, (Nibbles.split w).y, d⟩ = w := by
  obtain ⟨rfl, rfl⟩ := h
  exact Nibbles.join_split w

theorem encode_of_decode {ext : Bool} {i : Instr} {w : Word} (h : decode ext w = .instr i) : encode i = w := by
  simp only [decode] at h
  split_ifs at h with hhalt hadd hor hand hxor hsub <;> obtain rfl := Decoded.instr.inj h
  · exact ((word_eq_zero_iff w).mpr hhalt).symm
  · exact Nibbles.join_row hadd
  · exact Nibbles.join_row hor.2
  · exact Nibbles.join_row hand.2
  · exact Nibbles.join_row hxor.2
  · exact Nibbles.join_row hsub.2

theorem wellFormed_of_decode {ext : Bool} {i : Instr} {w : Word} (h : decode ext w = .instr i) : i.wellFormed ext = true := by
  rcases decode_cases ext w with ⟨j, hj, hwf⟩ | hrejected
  · obtain rfl := Decoded.instr.inj (hj.symm.trans h)
    exact hwf
  · rw [hrejected] at h
    cases h

theorem decode_eq_instr_iff (ext : Bool) (i : Instr) (w : Word) :
    decode ext w = .instr i ↔ i.wellFormed ext = true ∧ encode i = w := by
  refine ⟨fun h => ⟨wellFormed_of_decode h, encode_of_decode h⟩, ?_⟩
  rintro ⟨hwf, rfl⟩
  exact decode_encode hwf

/-- Settles O1: `decode_eq_instr_iff`; the left inverse goes through the rows, the right inverse through the decoder's arms. -/
theorem decodeExactlyInvertsEncode : Obligations.DecodeExactlyInvertsEncode := decode_eq_instr_iff

/-! The fields by shift and mask (R52). -/

theorem extractLsb'_four_eq_shift_mask (w : Word) (k : Nat) : (w.extractLsb' k 4).setWidth 16 = (w >>> k) &&& 0xF := by
  apply BitVec.eq_of_toNat_eq
  have hmask := Nat.and_two_pow_sub_one_eq_mod (w.toNat >>> k) 4
  simp only [BitVec.toNat_setWidth, BitVec.extractLsb'_toNat, BitVec.toNat_and, BitVec.toNat_ushiftRight]
  rw [show (0xF : Word).toNat = 2 ^ 4 - 1 from rfl, hmask]
  omega

/-- Settles O2: each field by `extractLsb'_four_eq_shift_mask`; `join` and `split` are inverse to each other. -/
theorem fieldExtractionIsABijection : Obligations.FieldExtractionIsABijection :=
  ⟨fun w => ⟨extractLsb'_four_eq_shift_mask w 12, extractLsb'_four_eq_shift_mask w 8, extractLsb'_four_eq_shift_mask w 4,
    extractLsb'_four_eq_shift_mask w 0, Nibbles.join_split w⟩, Nibbles.split_join⟩

/-! The opcode map of the base machine (R62). -/

/-- The base decoder by match and mask. -/
theorem decode_base_eq (w : Word) :
    decode false w =
      if w = 0x0000 then .instr .halt
      else if w &&& 0xF00F = 0x8004 then .instr (.add (w.extractLsb' 8 4) (w.extractLsb' 4 4))
      else .unrecognized w := by
  have hadd : w &&& 0xF00F = 0x8004 ↔ (Nibbles.split w).c = 8 ∧ (Nibbles.split w).d = 4 := word_matches_row w 4
  simp only [word_eq_zero_iff w, hadd, decode, Bool.false_eq_true, false_and, if_false]
  rfl

/-- The words of ADD, one for each pair of registers (R55). -/
def addWord (p : RegIx × RegIx) : Word := encode (.add p.1 p.2)

theorem decode_addWord (p : RegIx × RegIx) : decode false (addWord p) = .instr (.add p.1 p.2) := decode_encode rfl

theorem addWord_injective : Function.Injective addWord := by
  intro p q h
  obtain ⟨hx, hy⟩ := Instr.add.inj (encode_injective h)
  exact Prod.ext hx hy

theorem decode_base_halt_iff (w : Word) : decode false w = .instr .halt ↔ w = 0 :=
  ⟨Machine.decode_halt, fun h => h ▸ decode_zero false⟩

theorem decode_base_add_iff (w : Word) : (∃ x y, decode false w = .instr (.add x y)) ↔ w ∈ Set.range addWord := by
  constructor
  · rintro ⟨x, y, h⟩
    exact ⟨(x, y), encode_of_decode h⟩
  · rintro ⟨p, rfl⟩
    exact ⟨p.1, p.2, decode_addWord p⟩

theorem zero_notMem_range_addWord : (0 : Word) ∉ Set.range addWord := by
  rw [← decode_base_add_iff, decode_zero]
  rintro ⟨x, y, h⟩
  cases h

/-- HALT and ADD are all the base machine has, so every other word is unrecognized (R53, R54, R56). -/
theorem decode_base_unrecognized_iff (w : Word) :
    decode false w = .unrecognized w ↔ w ∈ (insert 0 (Set.range addWord))ᶜ := by
  rw [Set.mem_compl_iff, Set.mem_insert_iff, ← decode_base_halt_iff, ← decode_base_add_iff, decode_base_eq]
  split_ifs <;> simp

theorem card_bitVec (n : Nat) : Nat.card (BitVec n) = 2 ^ n := (Nat.card_congr BitVec.equivFin.toEquiv).trans (Nat.card_fin _)

theorem ncard_range_addWord : (Set.range addWord).ncard = 256 := by
  rw [Set.ncard_range_of_injective addWord_injective, Nat.card_prod, card_bitVec]
  rfl

/-- What the words of HALT and ADD leave of the 65536 words (R62). -/
theorem ncard_compl_halt_add : (insert 0 (Set.range addWord))ᶜ.ncard = 65279 := by
  have hsum := Set.ncard_add_ncard_compl (insert 0 (Set.range addWord))
  rw [Set.ncard_insert_of_notMem zero_notMem_range_addWord, ncard_range_addWord, card_bitVec] at hsum
  omega

/-- Settles O3: the map is `decode_base_eq`; HALT is {0}, ADD is the range of `addWord`, and the rest is their complement. -/
theorem baseOpcodeMap : Obligations.BaseOpcodeMap := by
  refine ⟨decode_base_eq, ?_, ?_, ?_⟩
  · simp only [decode_base_halt_iff]
    exact Nat.card_unique
  · simp only [decode_base_add_iff]
    exact ncard_range_addWord
  · simp only [decode_base_unrecognized_iff]
    exact ncard_compl_halt_add

/-! The numbering of opcode_table.json. -/

@[simp] theorem tableWord_toNat (w : Word) : tableWord 16 w.toNat = w := by
  rw [tableWord, Nat.mod_eq_of_lt w.isLt, BitVec.ofNat_toNat, BitVec.setWidth_eq]

theorem decodeBytes_bytes (ext : Bool) (w : Word) : decodeBytes ext [w.hiByte, w.loByte] = .decoded (decode ext w) [] := by
  rw [decodeBytes, wordOfBytes_bytes]

theorem decodeTableWord_encode (i : Instr) : decodeTableWord 16 (encode i).toNat = some i := by
  simp only [decodeTableWord, tableWord_toNat, decodeBytes_bytes, decode_encode (wellFormed_true i), Nat.le_refl, if_true]

end Sys2Proof

namespace Sys2Proof.Machine

/-! Placing an instruction at the pointer (R34, R152). -/

@[simp] theorem State.placeWord_ip (s : State) (w : Word) : (s.placeWord w).ip = s.ip := by
  rw [State.placeWord]; split <;> rfl

@[simp] theorem State.placeWord_status (s : State) (w : Word) : (s.placeWord w).status = s.status := by
  rw [State.placeWord]; split <;> rfl

theorem State.placeWord_mem {s : State} (w : Word) (hp : s.ip.toNat ≤ 4094) :
    (s.placeWord w).mem = Memory.storeAll s.mem s.ip.toNat [w.hiByte, w.loByte] := by
  have hp' : s.ip.toNat ≤ Config.lastFetch := hp
  rw [State.placeWord, if_pos hp']

/-- The word stored at an address is the word fetched from it: store and fetch are both big-endian (R34). -/
theorem readInstruction_storeAll {m : Memory} {p : Word} (w : Word) (hm : m.wf = true) (hp : p.toNat ≤ 4094) :
    readInstruction (Memory.storeAll m p.toNat [w.hiByte, w.loByte]) p = .word w := by
  have hbounds : p.toNat + [w.hiByte, w.loByte].length ≤ 4096 := by simpa using hp
  have hhi : Memory.byteAt (Memory.storeAll m p.toNat [w.hiByte, w.loByte]) p.toNat = w.hiByte :=
    Memory.byteAt_storeAll [w.hiByte, w.loByte] hm hbounds (k := 0) (by simp)
  have hlo : Memory.byteAt (Memory.storeAll m p.toNat [w.hiByte, w.loByte]) (p.toNat + 1) = w.loByte :=
    Memory.byteAt_storeAll [w.hiByte, w.loByte] hm hbounds (k := 1) (by simp)
  rw [readInstruction_of_le hp, hhi, hlo, wordOfBytes_bytes]

theorem State.fetch_placeWord {s : State} (w : Word) (hm : s.mem.wf = true) (hp : s.ip.toNat ≤ 4094) :
    readInstruction (s.placeWord w).mem s.ip = .word w := by
  rw [State.placeWord_mem w hp]
  exact readInstruction_storeAll w hm hp

/-- Selecting a profile leaves the state as it is or puts EXT_ALU in force. -/
theorem State.selectProfile_cases (s : State) (w : Word) :
    s.selectProfile w = s ∨ s.selectProfile w = { s with params := { s.params with extAlu := true } } := by
  rw [State.selectProfile]
  split
  · exact .inr rfl
  · exact .inl rfl

@[simp] theorem State.selectProfile_mem (s : State) (w : Word) : (s.selectProfile w).mem = s.mem := by
  rcases s.selectProfile_cases w with h | h <;> rw [h]

@[simp] theorem State.selectProfile_ip (s : State) (w : Word) : (s.selectProfile w).ip = s.ip := by
  rcases s.selectProfile_cases w with h | h <;> rw [h]

@[simp] theorem State.selectProfile_status (s : State) (w : Word) : (s.selectProfile w).status = s.status := by
  rcases s.selectProfile_cases w with h | h <;> rw [h]

/-- In the selected profile the word of any row is decoded: the profile had the row, or EXT_ALU has been put in force. -/
theorem State.decode_selectProfile (s : State) (i : Instr) :
    decode (s.selectProfile (encode i)).params.extAlu (encode i) = .instr i := by
  have hext := decode_encode (wellFormed_true i)
  rcases decode_cases s.params.extAlu (encode i) with ⟨j, hj, -⟩ | hrejected
  · obtain rfl := encode_injective (encode_of_decode hj)
    simp only [State.selectProfile, hj]
  · simp only [State.selectProfile, hrejected, hext]

/-- Settles O6: the placed word is fetched, and the selected profile decodes it to the instruction. -/
theorem placedInstructionIsRun : Obligations.PlacedInstructionIsRun := by
  intro i s hr hp hm
  refine ⟨decodeTableWord_encode i, ?_⟩
  rw [State.withFetchWord, tableWord_toNat,
    step_word (by simpa using hr) (by simpa using State.fetch_placeWord (encode i) hm hp)]
  exact dispatchWord_instr (State.decode_selectProfile _ i)

end Sys2Proof.Machine
end

section
/-! PROOF. The execution loop and HALT (40_execution_loop_and_halt.md): one pass of the loop, what ends a run, the bound of every
run, and sequential execution up to HALT. -/

namespace Sys2Proof.Machine

/-! One pass of the loop (R70, R72 to R75). -/

/-- Settles O7: the bounds check of the fetch unit, on either side of 4094. -/
theorem fetchResultForEveryPointer : Obligations.FetchResultForEveryPointer :=
  fun _ _ => ⟨readInstruction_of_gt, readInstruction_of_le⟩

/-- The four phases of a pass that finds an instruction in force: fetch, advance, decode, dispatch (R70). -/
theorem step_instr {s : State} {w : Word} {i : Instr} (hr : s.status = .running) (hw : readInstruction s.mem s.ip = .word w)
    (hi : decode s.params.extAlu w = .instr i) : step s = exec i s.advance :=
  (step_word hr hw).trans (dispatchWord_instr hi)

/-- Settles O9: the word fetched is in bounds, so the advance does not wrap, and the decoder answers rows in force only. -/
theorem stepRunsDecodedInstruction : Obligations.StepRunsDecodedInstruction :=
  fun _ _ _ hr hw hi => ⟨step_instr hr hw hi, advance_toNat (readInstruction_word hw), wellFormed_of_decode hi⟩

/-- The word 0x0000 is HALT in either profile (R54, R74). -/
theorem step_zero {s : State} (hr : s.status = .running) (hw : readInstruction s.mem s.ip = .word 0) :
    step s = .next s.advance.halt :=
  (step_instr hr hw (decode_zero _)).trans (execHalt_eq s.advance)

/-- Settles O22: HALT's meaning, and the step that runs it. -/
theorem haltWritesStatusOnly : Obligations.HaltWritesStatusOnly := ⟨execHalt_eq, fun _ => step_zero⟩

/-- Settles O15: each of the things `step_cases` says a step can do answers a next state. -/
theorem stepIsTotal : Obligations.StepIsTotal := by
  intro s
  obtain ⟨t, ht, -⟩ := step_cases s
  exact ⟨t, ht⟩

/-- Settles O13: the step and the loop both look at the status first. -/
theorem endedStateNeverChanges : Obligations.EndedStateNeverChanges :=
  fun _ _ h => ⟨step_of_ended h, runFor_ended h, runFor_ended h⟩

/-! Fuel: a run in two parts, and a run that has ended (R75, R76). -/

theorem runFor_add {j : Nat} (k : Nat) {s t : State} (h : runFor j s = .next t) : runFor (j + k) s = runFor k t := by
  induction j generalizing s with
  | zero =>
    obtain rfl := Host.Outcome.next.inj h
    rw [Nat.zero_add]
  | succ j ih =>
    by_cases hr : s.status = .running
    · obtain ⟨u, hu⟩ := stepIsTotal s
      rw [runFor_succ_running hr hu] at h
      rw [Nat.add_right_comm, runFor_succ_running hr hu, ih h]
    · rw [runFor_ended hr] at h
      obtain rfl := Host.Outcome.next.inj h
      rw [runFor_ended hr, runFor_ended hr]

/-- Once a run has ended, more fuel changes nothing. -/
theorem runFor_more_fuel {j k : Nat} {s t : State} (h : runFor j s = .next t) (ht : t.status ≠ .running) (hjk : j ≤ k) :
    runFor k s = .next t := by
  obtain ⟨d, rfl⟩ := Nat.exists_eq_add_of_le hjk
  rw [runFor_add d h, runFor_ended ht]

theorem runFor_one {s : State} (h : s.status = .running) : runFor 1 s = step s := by
  obtain ⟨t, ht⟩ := stepIsTotal s
  rw [runFor_succ_running h ht, ht]
  rfl

/-! The bound of every run (R71). -/

/-- Above 4094 the step faults, so a core still RUNNING after it has fetched a word. -/
theorem fetched_of_still_running {s t : State} (hr : s.status = .running) (h : step s = .next t) (ht : t.status = .running) :
    s.ip.toNat ≤ 4094 := by
  by_contra hp
  rw [step_outOfBounds hr (by omega)] at h
  obtain rfl := Host.Outcome.next.inj h
  cases ht

/-- The measure of a run: every step that leaves the core RUNNING lowers the bound by one at least. -/
theorem runBound_lt_of_still_running {s t : State} (hr : s.status = .running) (h : step s = .next t)
    (ht : t.status = .running) : runBound t.ip < runBound s.ip := by
  have hp : s.ip.toNat ≤ 4094 := fetched_of_still_running hr h ht
  have hip : t.ip.toNat = s.ip.toNat + 2 := by rw [step_ip_of_fetched hr hp h, advance_toNat hp]
  simp only [runBound, hip, if_pos hp]
  split <;> omega

theorem runBound_pos (ip : Word) : 0 < runBound ip := by
  unfold runBound
  split <;> omega

/-- Fuel up to the bound is enough for the run to end. -/
theorem runFor_ends {n : Nat} {s : State} (h : s.status = .running → runBound s.ip ≤ n) :
    ∃ t, runFor n s = .next t ∧ t.status ≠ .running := by
  by_cases hr : s.status = .running
  · induction n generalizing s with
    | zero => exact absurd (h hr) (Nat.not_le.mpr (runBound_pos s.ip))
    | succ n ih =>
      obtain ⟨u, hu⟩ := stepIsTotal s
      rw [runFor_succ_running hr hu]
      by_cases hur : u.status = .running
      · have hlt : runBound u.ip < runBound s.ip := runBound_lt_of_still_running hr hu hur
        exact ih (fun _ => Nat.le_of_lt_succ (hlt.trans_le (h hr))) hur
      · exact ⟨u, runFor_ended hur, hur⟩
  · exact ⟨s, runFor_ended hr, hr⟩

/-- Settles O34: the run with fuel `runBound`, which is the bound written out, ends; the rest is `runFor_more_fuel`. -/
theorem everyRunEndsWithinBound : Obligations.EveryRunEndsWithinBound := by
  intro s _
  obtain ⟨t, hrun, ht⟩ := runFor_ends (s := s) fun _ => Nat.le_refl (runBound s.ip)
  exact ⟨t, hrun, ht, fun _ hk => runFor_more_fuel hrun ht hk⟩

/-! Sequential execution (R78, R153). -/

/-- The first `n` words at the pointer are instructions in force other than HALT. -/
def State.Sequential (s : State) (n : Nat) : Prop :=
  ∀ k < n, ∃ w i, readInstruction s.mem (s.ip + BitVec.ofNat 16 (2 * k)) = .word w ∧
    decode s.params.extAlu w = .instr i ∧ i ≠ .halt

/-- `t` is RUNNING `n` words further than `s`, under the same memory and parameters. -/
def State.PastWords (s : State) (n : Nat) (t : State) : Prop :=
  t.status = .running ∧ t.ip = s.ip + BitVec.ofNat 16 (2 * n) ∧ t.mem = s.mem ∧ t.params = s.params

/-- Only HALT ends a run from inside `exec` (R54, R159). -/
theorem exec_status_of_ne_halt {i : Instr} {s t : State} (hi : i ≠ .halt) (h : exec i s = .next t) : t.status = s.status := by
  obtain ⟨t', ht', hcases⟩ := exec_cases i s
  obtain rfl : t' = t := Host.Outcome.next.inj (ht'.symm.trans h)
  rcases hcases with ⟨hhalt, -⟩ | ⟨-, x, -, -, -, -, hstatus, -⟩
  · exact absurd hhalt hi
  · exact hstatus

/-- One instruction other than HALT takes the core one word further. -/
theorem State.PastWords.step {s t u : State} {n : Nat} {w : Word} {i : Instr} (h : s.PastWords n t)
    (hw : readInstruction s.mem (s.ip + BitVec.ofNat 16 (2 * n)) = .word w) (hd : decode s.params.extAlu w = .instr i)
    (hi : i ≠ .halt) (hu : Machine.step t = .next u) : s.PastWords (n + 1) u := by
  obtain ⟨hr, hip, hmem, hparams⟩ := h
  rw [← hip, ← hmem] at hw
  rw [← hparams] at hd
  have hexec : exec i t.advance = .next u := (step_instr hr hw hd).symm.trans hu
  obtain ⟨hmem', hparams'⟩ := exec_mem_params hexec
  refine ⟨(exec_status_of_ne_halt hi hexec).trans hr, ?_, hmem'.trans hmem, hparams'.trans hparams⟩
  rw [exec_ip hexec, State.advance_ip, hip, Nat.mul_succ, BitVec.ofNat_add, BitVec.add_assoc]
  rfl

/-- Each word of a sequence takes one step, and the next word is the one fetched after it. -/
theorem runFor_sequential {n : Nat} {s : State} (hr : s.status = .running) (hseq : s.Sequential n) :
    ∃ t, runFor n s = .next t ∧ s.PastWords n t := by
  induction n with
  | zero => exact ⟨s, rfl, hr, (BitVec.add_zero s.ip).symm, rfl, rfl⟩
  | succ n ih =>
    obtain ⟨t, hrun, hpast⟩ := ih fun k hk => hseq k (Nat.lt_succ_of_lt hk)
    obtain ⟨w, i, hw, hd, hi⟩ := hseq n (Nat.lt_succ_self n)
    obtain ⟨u, hu⟩ := stepIsTotal t
    have htr : t.status = .running := hpast.1
    exact ⟨u, by rw [runFor_add 1 hrun, runFor_one htr, hu], hpast.step hw hd hi hu⟩

/-- Settles O35: `runFor_sequential` up to the word 0x0000, one step of HALT, and a bound of the run above `n + 1`. -/
theorem sequentialRunReachesHalt : Obligations.SequentialRunReachesHalt := by
  intro n s hr hbound hseq hzero
  obtain ⟨t, hrun, htr, htip, htmem, -⟩ := runFor_sequential hr hseq
  have hip : t.ip.toNat = s.ip.toNat + 2 * n := by rw [htip]; bv_omega
  have hhalt : step t = .next t.advance.halt := step_zero htr (by rw [htmem, htip]; exact hzero)
  have hend : runFor (n + 1) s = .next t.advance.halt := by rw [runFor_add 1 hrun, runFor_one htr, hhalt]
  have hfuel : n + 1 ≤ runBound s.ip := by rw [runBound, if_pos (by omega)]; omega
  refine ⟨⟨t, hrun, htr, hip⟩, t.advance.halt, hend, State.halt_status _, ?_, runFor_more_fuel hend nofun hfuel⟩
  rw [State.halt_ip, State.advance_ip, advance_toNat (by omega), hip]

end Sys2Proof.Machine
end

section
/-! PROOF. Arithmetic (41_arithmetic.md): what ADD leaves in the flag register and in its destination, that this depends on the two
operand values only, that the flag is not sticky, and the corner cases at equal operands and at register 15. -/

namespace Sys2Proof.Machine

/-! ADD (R85, R90). -/

section
variable {x y : RegIx} {s t : State}

/-- The flag write is the last, so it holds for `x = 15` as well (D6). -/
theorem exec_add_flag (h : exec (.add x y) s = .next t) :
    t.reg 15 = if (s.reg x).toNat + (s.reg y).toNat > 255 then 1 else 0 := by
  obtain rfl := Host.Outcome.next.inj ((execAdd_eq x y s).symm.trans h)
  rw [State.reg_setReg_same, flagByte_decide]

/-- The flag write spares a destination other than register 15. -/
theorem exec_add_dest (h : exec (.add x y) s = .next t) (hx : x ≠ 15) :
    (t.reg x).toNat = ((s.reg x).toNat + (s.reg y).toNat) % 256 := by
  obtain rfl := Host.Outcome.next.inj ((execAdd_eq x y s).symm.trans h)
  rw [State.reg_setReg_ne _ _ hx, State.reg_setReg_same, BitVec.toNat_ofNat]

theorem exec_add_flag_zero_or_one (h : exec (.add x y) s = .next t) : t.reg 15 = 0 ∨ t.reg 15 = 1 := by
  rw [exec_add_flag h, ← flagByte_decide]
  exact flagByte_zero_or_one _

theorem exec_add_flag_of_le (h : exec (.add x y) s = .next t) (hle : (s.reg x).toNat + (s.reg y).toNat ≤ 255) :
    t.reg 15 = 0 :=
  (exec_add_flag h).trans (if_neg (Nat.not_lt.mpr hle))

/-- Twice a byte overflows from 128 on. -/
theorem exec_add_self_flag (h : exec (.add x x) s = .next t) : t.reg 15 = if 128 ≤ (s.reg x).toNat then 1 else 0 :=
  (exec_add_flag h).trans (if_congr (by omega) rfl rfl)

/-- A destination that is the flag register holds the flag, any other the sum: a function of the operand values either way. -/
theorem exec_add_congr {s' t' : State} (hx : s.reg x = s'.reg x) (hy : s.reg y = s'.reg y) (h : exec (.add x y) s = .next t)
    (h' : exec (.add x y) s' = .next t') : t.reg x = t'.reg x ∧ t.reg 15 = t'.reg 15 := by
  have hflag : t.reg 15 = t'.reg 15 := by rw [exec_add_flag h, exec_add_flag h', hx, hy]
  refine ⟨?_, hflag⟩
  by_cases hx15 : x = 15
  · rwa [hx15]
  · exact BitVec.eq_of_toNat_eq (by rw [exec_add_dest h hx15, exec_add_dest h' hx15, hx, hy])

end

/-- ADD has no error condition (R85). -/
theorem exec_add_next (x y : RegIx) (s : State) : ∃ t, exec (.add x y) s = .next t := ⟨_, execAdd_eq x y s⟩

/-- Settles O23: the two writes of ADD, the flag's last, and the frame shared with the other register instructions. -/
theorem addWritesSumThenCarry : Obligations.AddWritesSumThenCarry := by
  intro x y s
  obtain ⟨t, ht⟩ := exec_add_next x y s
  exact ⟨t, ht, exec_add_flag ht, exec_add_dest ht, exec_sameButDestAndFlag (.inl rfl) ht⟩

/-- Settles O26: both values written are functions of the operand values, `exec_add_congr`. -/
theorem addDependsOnOperandsOnly : Obligations.AddDependsOnOperandsOnly := by
  intro x y s s' hx hy
  obtain ⟨t, ht⟩ := exec_add_next x y s
  obtain ⟨t', ht'⟩ := exec_add_next x y s'
  exact ⟨t, t', ht, ht', exec_add_congr hx hy ht ht'⟩

/-- Settles O24: the flag is the carry of the ADD's own operands, and a byte put in register 15 changes no other operand. -/
theorem addFlagIsNotSticky : Obligations.AddFlagIsNotSticky := by
  intro x y s
  obtain ⟨t, ht⟩ := exec_add_next x y s
  refine ⟨⟨t, ht, exec_add_flag ht, exec_add_flag_zero_or_one ht, exec_add_flag_of_le ht⟩, fun hx hy f => ?_, fun x' y' => ?_⟩
  · obtain ⟨v, hv⟩ := exec_add_next x y (s.setReg 15 f)
    exact ⟨t, v, ht, hv, (exec_add_congr (s.reg_setReg_ne f hx) (s.reg_setReg_ne f hy) hv ht).2⟩
  · obtain ⟨u, hu⟩ := exec_add_next x' y' t
    exact ⟨t, u, ht, hu, exec_add_flag hu, exec_add_flag_of_le hu⟩

/-- Settles O25: equal operands double, register 15 is an ordinary second operand, and as the destination it holds the carry. -/
theorem addCornerCases : Obligations.AddCornerCases := by
  intro x s
  refine ⟨fun hx => ?_, fun hx => ?_, fun hx => ?_, ?_⟩
  · obtain ⟨t, ht⟩ := exec_add_next x x s
    exact ⟨t, ht, by rw [exec_add_dest ht hx, Nat.two_mul], exec_add_self_flag ht⟩
  · obtain ⟨t, ht⟩ := exec_add_next x 15 s
    exact ⟨t, ht, exec_add_dest ht hx, exec_add_flag ht⟩
  · obtain ⟨t, ht⟩ := exec_add_next 15 x s
    obtain ⟨hframe, -⟩ := exec_sameButDestAndFlag (.inl rfl) ht
    exact ⟨t, ht, hframe x hx hx, exec_add_flag ht⟩
  · obtain ⟨t, ht⟩ := exec_add_next 15 15 s
    exact ⟨t, ht, exec_add_self_flag ht⟩

end Sys2Proof.Machine
end

section
/-! PROOF. The optional profile EXT_ALU (42_extension_contract.md, part 2): the words of its four rows, which fault in the base
machine, and what OR, AND, XOR and SUB leave in their destination and in the flag register. -/

namespace Sys2Proof

/-! The words of the four rows (R101). -/

/-- A word that matches a register row is that row's pattern around its own register fields. -/
theorem Nibbles.join_of_masked {w : Word} {d : Nibble} (h : w &&& 0xF00F = Nibbles.join ⟨8, 0, 0, d⟩) :
    Nibbles.join ⟨8, w.extractLsb' 8 4, w.extractLsb' 4 4, d⟩ = w :=
  Nibbles.join_row ((word_matches_row w d).mp h)

/-- The four masks of R101 match exactly the encodings of EXT_ALU's rows. -/
theorem masked_extAlu_iff (w : Word) :
    (w &&& 0xF00F = 0x8001 ∨ w &&& 0xF00F = 0x8002 ∨ w &&& 0xF00F = 0x8003 ∨ w &&& 0xF00F = 0x8005) ↔
      ∃ i : Instr, i.isExtAlu = true ∧ encode i = w := by
  constructor
  · rintro (h | h | h | h)
    · exact ⟨.or _ _, rfl, Nibbles.join_of_masked h⟩
    · exact ⟨.and _ _, rfl, Nibbles.join_of_masked h⟩
    · exact ⟨.xor _ _, rfl, Nibbles.join_of_masked h⟩
    · exact ⟨.sub _ _, rfl, Nibbles.join_of_masked h⟩
  · rintro ⟨i, hi, rfl⟩
    cases i with
    | halt | add => cases hi
    | or x y => exact .inl (Laws.TableRow.or x y)
    | and x y => exact .inr (.inl (Laws.TableRow.and x y))
    | xor x y => exact .inr (.inr (.inl (Laws.TableRow.xor x y)))
    | sub x y => exact .inr (.inr (.inr (Laws.TableRow.sub x y)))

/-- EXT_ALU = true decodes every encoding, whichever profile its row belongs to. -/
theorem decode_true_of_encode {i : Instr} {w : Word} (h : encode i = w) : decode true w = .instr i :=
  (decode_eq_instr_iff true i w).mpr ⟨wellFormed_true i, h⟩

/-- The base machine rejects the rows of EXT_ALU: no row in force has the same encoding. -/
theorem decode_false_encode_extAlu {i : Instr} (hi : i.isExtAlu = true) : decode false (encode i) = .unrecognized (encode i) := by
  rcases decode_cases false (encode i) with ⟨j, hj, hwf⟩ | hrejected
  · obtain rfl := encode_injective (encode_of_decode hj)
    simp [Instr.wellFormed, hi] at hwf
  · exact hrejected

/-- The profiles differ on the encodings of EXT_ALU's rows only. -/
theorem decode_true_eq_false {w : Word} (h : ¬ ∃ i : Instr, i.isExtAlu = true ∧ encode i = w) : decode true w = decode false w := by
  rcases decode_cases true w with ⟨i, hi, -⟩ | hrejected
  · have henc : encode i = w := encode_of_decode hi
    have hbase : i.wellFormed false = true := by
      simpa [Instr.wellFormed] using fun hext => h ⟨i, hext, henc⟩
    rw [hi, (decode_eq_instr_iff false i w).mpr ⟨hbase, henc⟩]
  · rcases decode_cases false w with ⟨i, hi, -⟩ | hrejected'
    · rw [hi, decode_true_of_encode (encode_of_decode hi)]
    · rw [hrejected, hrejected']

/-- Settles O4: a matching word is the encoding of its row, and any other word is decoded alike in both profiles. -/
theorem extAluAddsFourPatterns : Obligations.ExtAluAddsFourPatterns := by
  intro w
  split_ifs with hor hand hxor hsub
  · exact decode_true_of_encode (Nibbles.join_of_masked hor)
  · exact decode_true_of_encode (Nibbles.join_of_masked hand)
  · exact decode_true_of_encode (Nibbles.join_of_masked hxor)
  · exact decode_true_of_encode (Nibbles.join_of_masked hsub)
  · refine decode_true_eq_false fun hext => ?_
    rcases (masked_extAlu_iff w).mpr hext with h | h | h | h
    exacts [hor h, hand h, hxor h, hsub h]

/-- Settles O5: the decoder evaluated on the ten words. -/
theorem sampleWordsDecode : Obligations.SampleWordsDecode := by
  unfold Obligations.SampleWordsDecode
  decide

end Sys2Proof

namespace Sys2Proof.Machine

/-! An unrecognized word (R122). -/

theorem step_unrecognized {s : State} {w : Word} (hr : s.status = .running) (hw : readInstruction s.mem s.ip = .word w)
    (hu : decode s.params.extAlu w = .unrecognized w) : step s = .next (s.advance.raiseUnrecognized s.ip w) :=
  (step_word hr hw).trans (dispatchWord_unrecognized hu)

/-- Settles O12: a masked word is the encoding of a row of EXT_ALU, which the base machine does not decode. -/
theorem extAluWordsFaultInBaseMachine : Obligations.ExtAluWordsFaultInBaseMachine := by
  intro s w hr hbase hw hmask
  obtain ⟨i, hi, rfl⟩ := (masked_extAlu_iff w).mp hmask
  exact step_unrecognized hr hw (hbase ▸ decode_false_encode_extAlu hi)

/-! OR, AND, XOR (R102 to R104). -/

section
variable {s : State} {x : RegIx} (f : Byte → Byte → Byte) (y : RegIx)

theorem State.logicOp_of_unchanged (hp : s.params.logicFlag = .unchanged) :
    s.logicOp f x y = s.setReg x (f (s.reg x) (s.reg y)) := by
  rw [State.logicOp_eq, hp]

theorem State.logicOp_of_cleared (hp : s.params.logicFlag = .cleared) :
    s.logicOp f x y = (s.setReg x (f (s.reg x) (s.reg y))).setReg 15 0 := by
  rw [State.logicOp_eq, hp]

/-- The flag write, where there is one, spares a destination other than register 15. -/
theorem State.logicOp_dest (hx : x ≠ 15) : (s.logicOp f x y).reg x = f (s.reg x) (s.reg y) := by
  cases hp : s.params.logicFlag with
  | unchanged => rw [State.logicOp_of_unchanged f y hp, State.reg_setReg_same]
  | cleared => rw [State.logicOp_of_cleared f y hp, State.reg_setReg_ne _ _ hx, State.reg_setReg_same]

end

/-- OR, AND and XOR are one handler, `State.logicOp`, for three operations. -/
theorem exec_logic {x y : RegIx} {s : State} {i : Instr} {v : Byte}
    (h : i = .or x y ∧ v = s.reg x ||| s.reg y ∨ i = .and x y ∧ v = s.reg x &&& s.reg y ∨
      i = .xor x y ∧ v = s.reg x ^^^ s.reg y) :
    ∃ f : Byte → Byte → Byte, exec i s = .next (s.logicOp f x y) ∧ f (s.reg x) (s.reg y) = v := by
  rcases h with ⟨rfl, rfl⟩ | ⟨rfl, rfl⟩ | ⟨rfl, rfl⟩ <;> exact ⟨_, rfl, rfl⟩

/-- Settles O27: the shared handler under either LOGIC_FLAG; with CLEARED the flag write is the last. -/
theorem logicHandlersWriteResult : Obligations.LogicHandlersWriteResult := by
  intro x y s i v h
  obtain ⟨f, hexec, rfl⟩ := exec_logic h
  refine ⟨_, hexec, fun hp => ⟨?_, State.logicOp_flag_of_unchanged f y hp⟩, fun hp => ⟨?_, State.logicOp_dest f y⟩,
    s.sameBut_logicOp f x y⟩
  · rw [State.logicOp_of_unchanged f y hp, State.reg_setReg_same]
  · rw [State.logicOp_of_cleared f y hp, State.reg_setReg_same]

/-! SUB (R105, R106). -/

/-- The difference as the model computes it, in the naturals, is the subtraction of bytes. -/
theorem byte_sub_eq (a b : Byte) : BitVec.ofNat 8 (a.toNat + 256 - b.toNat) = a - b := by bv_omega

/-- The subtraction of bytes is the difference of the integers modulo 256 (R105). -/
theorem byte_sub_toInt (a b : Byte) : ((a - b).toNat : Int) = (a.toNat - b.toNat : Int) % 256 := by
  have hb : b.toNat < 256 := b.isLt
  rw [BitVec.toNat_sub]
  omega

section
variable {x y : RegIx} {s t : State}

/-- The flag write is the last, so it holds for `x = 15` as well (R107). -/
theorem exec_sub_flag (h : exec (.sub x y) s = .next t) :
    t.reg 15 = flagByte ((s.operands x y).subFlag s.params.subFlag) := by
  obtain rfl := Host.Outcome.next.inj ((execSub_eq x y s).symm.trans h)
  exact State.reg_setReg_same _ _ _

theorem exec_sub_flag_of_borrow (h : exec (.sub x y) s = .next t) (hp : s.params.subFlag = .borrow) :
    t.reg 15 = if (s.reg x).toNat < (s.reg y).toNat then 1 else 0 := by
  rw [exec_sub_flag h, hp]
  exact flagByte_decide _

/-- No borrow is the complement of the borrow. -/
theorem exec_sub_flag_of_notBorrow (h : exec (.sub x y) s = .next t) (hp : s.params.subFlag = .notBorrow) :
    t.reg 15 = if (s.reg y).toNat ≤ (s.reg x).toNat then 1 else 0 := by
  rw [exec_sub_flag h, hp, Operands.subFlag, Operands.borrow, ← decide_not, flagByte_decide]
  exact if_congr Nat.not_lt rfl rfl

/-- The flag write spares a destination other than register 15. -/
theorem exec_sub_dest (h : exec (.sub x y) s = .next t) (hx : x ≠ 15) : t.reg x = s.reg x - s.reg y := by
  obtain rfl := Host.Outcome.next.inj ((execSub_eq x y s).symm.trans h)
  rw [State.reg_setReg_ne _ _ hx, State.reg_setReg_same, byte_sub_eq]

/-- Equal operands do not borrow. -/
theorem exec_sub_self_flag (h : exec (.sub x x) s = .next t) :
    t.reg 15 = match s.params.subFlag with | .borrow => 0 | .notBorrow => 1 := by
  cases hp : s.params.subFlag with
  | borrow => rw [exec_sub_flag_of_borrow h hp, if_neg (Nat.lt_irrefl _)]
  | notBorrow => rw [exec_sub_flag_of_notBorrow h hp, if_pos (Nat.le_refl _)]

end

/-- SUB has no error condition (R105). -/
theorem exec_sub_next (x y : RegIx) (s : State) : ∃ t, exec (.sub x y) s = .next t := ⟨_, execSub_eq x y s⟩

/-- Settles O28: the two writes of SUB, the flag's last, and the frame shared with the other register instructions. -/
theorem subWritesDifferenceThenFlag : Obligations.SubWritesDifferenceThenFlag := by
  intro x y s
  obtain ⟨t, ht⟩ := exec_sub_next x y s
  refine ⟨t, ht, exec_sub_flag_of_borrow ht, exec_sub_flag_of_notBorrow ht, fun hx => ?_,
    exec_sameButDestAndFlag (.inr (.inr (.inr (.inr rfl)))) ht⟩
  rw [exec_sub_dest ht hx, byte_sub_toInt]

/-- Settles O29: the destination under each operation at equal operands, and `exec_sub_self_flag`. -/
theorem extAluEqualOperands : Obligations.ExtAluEqualOperands := by
  intro x s hx
  obtain ⟨t, ht⟩ := exec_sub_next x x s
  refine ⟨_, _, _, t, rfl, rfl, rfl, ht, ?_, ?_, ?_, ?_, exec_sub_self_flag ht⟩
  · exact (State.logicOp_dest _ x hx).trans BitVec.or_self
  · exact (State.logicOp_dest _ x hx).trans BitVec.and_self
  · exact (State.logicOp_dest _ x hx).trans BitVec.xor_self
  · exact (exec_sub_dest ht hx).trans (BitVec.sub_self _)

end Sys2Proof.Machine
end

section
/-! PROOF. Faults (60_exceptions.md): the two conditions under which a step faults and what the fault leaves, the
register-index fault that no run records and that a malformed index takes, and the host's indices. -/

namespace Sys2Proof.Machine

/-! The two fatal conditions of a step (R121, R122). -/

/-- Settles O10: the fetch's bounds check fails before anything is read or advanced. -/
theorem outOfBoundsFetchFaults : Obligations.OutOfBoundsFetchFaults := fun _ => step_outOfBounds

/-- Settles O11: the advance comes before dispatch, which takes the fault. -/
theorem unrecognizedOpcodeFaults : Obligations.UnrecognizedOpcodeFaults := fun _ _ => step_unrecognized

/-! Nothing else faults, and a fault is precise (R120, R125, R127). -/

/-- A word is unrecognized when it decodes to no instruction in force (R56). -/
theorem decode_unrecognized_iff {ext : Bool} {w : Word} :
    decode ext w = .unrecognized w ↔ ∀ i, decode ext w ≠ .instr i := by
  constructor
  · intro hu i hi
    rw [hu] at hi
    cases hi
  · intro hno
    rcases decode_cases ext w with ⟨i, hi, -⟩ | hu
    · exact absurd hi (hno i)
    · exact hu

/-- No instruction takes a fault (R120). -/
theorem exec_status_ne_faulted {i : Instr} {s t : State} (hr : s.status = .running) (h : exec i s = .next t) :
    t.status ≠ .faulted := by
  by_cases hi : i = .halt
  · subst hi
    obtain rfl := Host.Outcome.next.inj h
    exact nofun
  · rw [exec_status_of_ne_halt hi h, hr]
    exact nofun

/-- The inversion of a step that faults: the fetch was out of bounds, or the word fetched is unrecognized. -/
theorem step_faulted_cases {s t : State} (hr : s.status = .running) (h : step s = .next t) (hf : t.status = .faulted) :
    (s.ip.toNat > 4094 ∧ t = s.raiseFetchOutOfBounds s.ip) ∨
    (s.ip.toNat ≤ 4094 ∧ ∃ w, readInstruction s.mem s.ip = .word w ∧ decode s.params.extAlu w = .unrecognized w ∧
      t = s.advance.raiseUnrecognized s.ip w) := by
  obtain ⟨t', ht', hcases⟩ := step_cases s
  obtain rfl : t' = t := Host.Outcome.next.inj (ht'.symm.trans h)
  rcases hcases with ⟨hended, -⟩ | ⟨-, hp, ht⟩ | ⟨-, hp, w, hw, ⟨hu, ht⟩ | ⟨i, -, hexec, -⟩⟩
  · exact absurd hr hended
  · exact .inl ⟨hp, ht⟩
  · exact .inr ⟨hp, w, hw, hu, ht⟩
  · exact absurd hf (exec_status_ne_faulted (s := s.advance) hr hexec)

theorem step_faulted_iff {s t : State} (hr : s.status = .running) (h : step s = .next t) :
    t.status = .faulted ↔
      s.ip.toNat > 4094 ∨ ∃ w, readInstruction s.mem s.ip = .word w ∧ ∀ i, decode s.params.extAlu w ≠ .instr i := by
  constructor
  · intro hf
    rcases step_faulted_cases hr h hf with ⟨hp, -⟩ | ⟨-, w, hw, hu, -⟩
    · exact .inl hp
    · exact .inr ⟨w, hw, decode_unrecognized_iff.mp hu⟩
  · rintro (hp | ⟨w, hw, hno⟩)
    · obtain rfl := Host.Outcome.next.inj ((step_outOfBounds hr hp).symm.trans h)
      rfl
    · obtain rfl := Host.Outcome.next.inj ((step_unrecognized hr hw (decode_unrecognized_iff.mpr hno)).symm.trans h)
      rfl

/-- Settles O18: `step_faulted_iff`, and the frame of the two states that `step_faulted_cases` leaves. -/
theorem faultsExactlyAndPrecisely : Obligations.FaultsExactlyAndPrecisely := by
  intro s hr
  obtain ⟨t, ht⟩ := stepIsTotal s
  refine ⟨t, ht, step_faulted_iff hr ht, fun hf => ?_⟩
  rcases step_faulted_cases hr ht hf with ⟨hp, rfl⟩ | ⟨hp, w, -, -, rfl⟩
  · exact ⟨fun _ => rfl, rfl, rfl, (if_pos hp).symm, rfl⟩
  · exact ⟨fun _ => rfl, rfl, rfl, (if_neg (Nat.not_lt.mpr hp)).symm, rfl⟩

/-! The register-index fault (R98, R123). -/

/-- No instruction writes the fault record. -/
theorem exec_fault {i : Instr} {s t : State} (h : exec i s = .next t) : t.fault = s.fault := by
  obtain ⟨t', ht', hcases⟩ := exec_cases i s
  obtain rfl : t' = t := Host.Outcome.next.inj (ht'.symm.trans h)
  rcases hcases with ⟨-, rfl⟩ | ⟨-, x, -, -, -, -, -, hfault, -⟩
  · exact s.halt_fault
  · exact hfault

/-- A step leaves the cause recorded, or records one of the first two (R120). -/
theorem step_fault_cause {s t : State} (h : step s = .next t) :
    t.fault.cause = s.fault.cause ∨ t.fault.cause = .fetchOutOfBounds ∨ t.fault.cause = .unrecognizedOpcode := by
  obtain ⟨t', ht', hcases⟩ := step_cases s
  obtain rfl : t' = t := Host.Outcome.next.inj (ht'.symm.trans h)
  rcases hcases with ⟨-, rfl⟩ | ⟨-, -, rfl⟩ | ⟨-, -, w, -, ⟨-, rfl⟩ | ⟨i, -, hexec, -⟩⟩
  · exact .inl rfl
  · exact .inr (.inl rfl)
  · exact .inr (.inr rfl)
  · exact .inl (congrArg FaultRecord.cause (exec_fault (s := s.advance) hexec))

theorem step_keeps_cause_ne_registerIndex {s t : State} (hs : s.fault.cause ≠ .registerIndexOutOfRange)
    (h : step s = .next t) : t.fault.cause ≠ .registerIndexOutOfRange := by
  rcases step_fault_cause h with hc | hc | hc
  · exact hc ▸ hs
  · exact hc ▸ nofun
  · exact hc ▸ nofun

/-- Settles O19: no step records the cause, so no run does. -/
theorem registerIndexFaultIsUnreachable : Obligations.RegisterIndexFaultIsUnreachable := by
  intro k s hs
  obtain ⟨t, ht⟩ := runFor_next k s
  exact ⟨t, ht, runFor_induction (fun _ _ _ => step_keeps_cause_ne_registerIndex) k hs ht⟩

theorem State.withRegIndex_toNat (s : State) (i : RegIx) (handler : RegIx → State → State) :
    s.withRegIndex i.toNat handler = handler i s := by
  rw [State.withRegIndex, regIndex_eq_some.mpr rfl]

theorem State.withRegIndex_of_ge (s : State) {n : Nat} (handler : RegIx → State → State) (hn : 16 ≤ n) :
    s.withRegIndex n handler = s.raiseRegIndex := by
  rw [State.withRegIndex, regIndex_eq_none.mpr hn]

/-- Inside a handler the word being executed stands 2 before the pointer. -/
theorem State.raiseRegIndex_of_word {s : State} {w : Word} (hw : readInstruction s.mem (s.ip - 2) = .word w) :
    s.raiseRegIndex = s.raise .registerIndexOutOfRange (s.ip - 2) w := by
  simp only [State.raiseRegIndex, hw]

/-- Settles O20: in range the index is the register's, from 16 up it is none and the handler does not run. -/
theorem malformedRegisterIndexIsFatal : Obligations.MalformedRegisterIndexIsFatal := by
  intro s n handler w hw
  constructor
  · rintro i rfl
    exact s.withRegIndex_toNat i handler
  · intro hn
    exact (s.withRegIndex_of_ge handler hn).trans (State.raiseRegIndex_of_word hw)

/-! The host's indices (R6, R39, R138). -/

theorem hostReadMem_of_lt {a : Nat} (s : State) (ha : a < 4096) : hostReadMem a s = .ok (Memory.byteAt s.mem a) := if_pos ha

theorem hostReadMem_of_ge {a : Nat} (s : State) (ha : 4096 ≤ a) : hostReadMem a s = .error (.hostAddressOutOfRange a) :=
  if_neg (Nat.not_lt.mpr ha)

theorem hostReadReg_toNat (i : RegIx) (s : State) : hostReadReg i.toNat s = .ok (s.reg i) := by
  rw [hostReadReg, regIndex_eq_some.mpr rfl]

theorem hostReadReg_of_ge {i : Nat} (s : State) (hi : 16 ≤ i) : hostReadReg i s = .error (.hostRegisterOutOfRange i) := by
  rw [hostReadReg, regIndex_eq_none.mpr hi]

/-- Settles O42: reads check the same ranges as the writes, which are refused by `transact_writeMem_outOfRange` and
`transact_writeReg_outOfRange`. -/
theorem hostIndexOutOfRangeIsRefused : Obligations.HostIndexOutOfRangeIsRefused := by
  intro s
  exact ⟨fun a v ha => ⟨hostReadMem_of_ge s.core ha, fun hs => transact_writeMem_outOfRange v hs ha⟩,
    fun i v hi => ⟨hostReadReg_of_ge s.core hi, fun hs => transact_writeReg_outOfRange v hs hi⟩,
    fun a ha => hostReadMem_of_lt s.core ha, fun i => hostReadReg_toNat i s.core⟩

end Sys2Proof.Machine
end

section
/-! PROOF. Reset and the end of a run (70_reset_and_hazards.md): the word that halts, Reset and the run right after it, the
loading of an image, and the boot sequence. -/

namespace Sys2Proof.Machine

/-! The word that halts (R54, R74, R159). -/

theorem readInstruction_zero_iff {m : Memory} {p : Word} :
    readInstruction m p = .word 0 ↔ p.toNat ≤ 4094 ∧ Memory.byteAt m p.toNat = 0 ∧ Memory.byteAt m (p.toNat + 1) = 0 := by
  constructor
  · intro h
    have hp : p.toNat ≤ 4094 := readInstruction_word h
    rw [readInstruction_of_le hp] at h
    exact ⟨hp, wordOfBytes_eq_zero.mp (Fetched.word.inj h)⟩
  · rintro ⟨hp, hbytes⟩
    rw [readInstruction_of_le hp, wordOfBytes_eq_zero.mpr hbytes]

/-- Of the things a step of a RUNNING core can do, only HALT halts, and only 0x0000 decodes to it. -/
theorem step_halted_iff {s t : State} (hr : s.status = .running) (h : step s = .next t) :
    t.status = .halted ↔ readInstruction s.mem s.ip = .word 0 := by
  constructor
  · intro hh
    obtain ⟨t', ht', hcases⟩ := step_cases s
    obtain rfl : t' = t := Host.Outcome.next.inj (ht'.symm.trans h)
    rcases hcases with ⟨hended, -⟩ | ⟨-, -, rfl⟩ | ⟨-, -, w, hw, ⟨-, rfl⟩ | ⟨i, hi, hexec, ⟨rfl, -⟩ | ⟨hne, -⟩⟩⟩
    · exact absurd hr hended
    · cases hh
    · cases hh
    · rwa [decode_halt hi] at hw
    · rw [exec_status_of_ne_halt hne hexec, State.advance_status, hr] at hh
      cases hh
  · intro hw
    obtain rfl := Host.Outcome.next.inj ((step_zero hr hw).symm.trans h)
    exact State.halt_status _

/-- Settles O17: `step_halted_iff`, with the fetch of 0x0000 said in bytes. -/
theorem haltsExactlyOnZeroWord : Obligations.HaltsExactlyOnZeroWord := by
  intro s hr
  obtain ⟨t, ht⟩ := stepIsTotal s
  exact ⟨t, ht, (step_halted_iff hr ht).trans readInstruction_zero_iff⟩

/-! Reset (R150, R151). -/

/-- Settles O39: Reset answers the reset state under the session's parameters, whatever the state was. -/
theorem resetFromEveryState : Obligations.ResetFromEveryState := by
  intro s
  exact ⟨_, transact_reset s, rfl, State.resetUnder_reg _, fun _ => rfl, State.resetUnder_mem _, State.resetUnder_ip _,
    State.resetUnder_status _, State.resetUnder_fault _, State.resetUnder_params _⟩

/-- Settles O40: the empty memory holds 0x0000 at the pointer, so the first step halts, and the run ends with it. -/
theorem runAfterResetHalts : Obligations.RunAfterResetHalts := by
  intro p
  have hr : (State.resetUnder p).status = .running := State.resetUnder_status p
  have hstep : step (State.resetUnder p) = .next (State.resetUnder p).advance.halt :=
    step_zero hr (readInstruction_zero_iff.mpr ⟨Nat.zero_le 4094, rfl, rfl⟩)
  have hrun : run (State.resetUnder p) = .next (State.resetUnder p).advance.halt :=
    runFor_more_fuel ((runFor_one hr).trans hstep) nofun (runBound_pos _)
  exact ⟨_, hrun, hstep, State.halt_status _, rfl, State.resetUnder_reg p⟩

/-! Loading an image (R34, R152). -/

/-- The bytes of an image in address order: each word's high byte, then its low byte. -/
def imageBytes (ws : List Word) : List Byte := ws.flatMap fun w => [w.hiByte, w.loByte]

@[simp] theorem imageBytes_cons (w : Word) (ws : List Word) :
    imageBytes (w :: ws) = w.hiByte :: w.loByte :: imageBytes ws := rfl

@[simp] theorem imageBytes_length (ws : List Word) : (imageBytes ws).length = 2 * ws.length := by
  induction ws with
  | nil => rfl
  | cons w ws ih => simp only [imageBytes_cons, List.length_cons, ih, Nat.mul_succ]

/-- Word `k` of an image is its bytes `2 * k` and `2 * k + 1`. -/
theorem imageBytes_getElem? {ws : List Word} {k : Nat} {w : Word} (h : ws[k]? = some w) :
    (imageBytes ws)[2 * k]? = some w.hiByte ∧ (imageBytes ws)[2 * k + 1]? = some w.loByte := by
  induction ws generalizing k with
  | nil => cases h
  | cons v ws ih =>
    cases k with
    | zero =>
      obtain rfl := Option.some.inj h
      exact ⟨rfl, rfl⟩
    | succ k => exact ih h

/-- The state with an image stored at an address. -/
def State.load (s : State) (a : Nat) (ws : List Word) : State := { s with mem := Memory.storeAll s.mem a (imageBytes ws) }

/-- The host's moves that load an image store its bytes at consecutive addresses. -/
theorem transactAll_loadMoves {s : Session} {a : Nat} {ws : List Word} (hs : s.started = false) (h : a + 2 * ws.length ≤ 4096) :
    transactAll (loadMoves a ws) s = .next { s with core := s.core.load a ws } := by
  induction ws generalizing s a with
  | nil => rfl
  | cons w ws ih =>
    rw [List.length_cons] at h
    calc transactAll (loadMoves a (w :: ws)) s
      _ = transactAll (.writeMem (a + 1) w.loByte :: loadMoves (a + 2) ws) _ :=
        transactAll_cons (transact_writeMem w.hiByte hs (by omega))
      _ = transactAll (loadMoves (a + 2) ws) _ := transactAll_cons (transact_writeMem w.loByte hs (by omega))
      _ = _ := ih hs (by omega)

section
variable {s : State} {a : Nat} {ws : List Word}

theorem State.load_mem_wf (hm : s.mem.wf = true) (h : a + 2 * ws.length ≤ 4096) : (s.load a ws).mem.wf = true :=
  Memory.storeAll_wf (imageBytes ws) hm (by simpa using h)

theorem State.load_byteAt_ne {b : Nat} (hb : b < a ∨ a + 2 * ws.length ≤ b) :
    Memory.byteAt (s.load a ws).mem b = Memory.byteAt s.mem b :=
  Memory.byteAt_storeAll_ne s.mem (imageBytes ws) (by simpa using hb)

theorem State.load_byteAt {k : Nat} {v : Byte} (hm : s.mem.wf = true) (h : a + 2 * ws.length ≤ 4096)
    (hv : (imageBytes ws)[k]? = some v) : Memory.byteAt (s.load a ws).mem (a + k) = v := by
  obtain ⟨hk, rfl⟩ := List.getElem?_eq_some_iff.mp hv
  exact Memory.byteAt_storeAll (imageBytes ws) hm (by simpa using h) hk

/-- A loaded image is in place (LP_IMAGE of R161). -/
theorem State.load_lpImage (hm : s.mem.wf = true) (h : a + 2 * ws.length ≤ 4096) : (s.load a ws).LpImage a ws := by
  intro k w hw
  obtain ⟨hhi, hlo⟩ := imageBytes_getElem? hw
  exact ⟨State.load_byteAt hm h hhi, State.load_byteAt hm h hlo⟩

/-- An image in place is what fetches at its addresses read: image and fetch are both big-endian (R34). -/
theorem State.LpImage.fetch (himage : s.LpImage a ws) (h : a + 2 * ws.length ≤ 4096) {k : Nat} {w : Word}
    (hw : ws[k]? = some w) : readInstruction s.mem (BitVec.ofNat 16 (a + 2 * k)) = .word w := by
  obtain ⟨hk, -⟩ := List.getElem?_eq_some_iff.mp hw
  obtain ⟨hhi, hlo⟩ := himage k w hw
  have hip : (BitVec.ofNat 16 (a + 2 * k)).toNat = a + 2 * k := Nat.mod_eq_of_lt (by omega)
  rw [readInstruction_of_le (by omega), hip, hhi, hlo, wordOfBytes_bytes]

end

/-- Settles O43: the load is one wide store of the image's bytes, and an image in place is fetched word for word. -/
theorem loadedImageIsFetched : Obligations.LoadedImageIsFetched := by
  intro s a ws hs hm h
  exact ⟨(s.core.load a ws).mem, transactAll_loadMoves hs h, State.load_mem_wf hm h, fun _ hb => State.load_byteAt_ne hb,
    fun _ _ hw => (State.load_lpImage hm h).fetch h hw⟩

/-! Preloading registers (R152 step 4). -/

/-- The state with registers written one after the other. -/
def State.preload (s : State) (regs : List (RegIx × Byte)) : State := regs.foldl (fun t r => t.setReg r.1 r.2) s

theorem State.preload_cons (s : State) (r : RegIx × Byte) (regs : List (RegIx × Byte)) :
    s.preload (r :: regs) = (s.setReg r.1 r.2).preload regs := rfl

theorem transactAll_preloadMoves {s : Session} {regs : List (RegIx × Byte)} (hs : s.started = false) :
    transactAll (preloadMoves (regs.map fun r => (r.1.toNat, r.2))) s = .next { s with core := s.core.preload regs } := by
  induction regs generalizing s with
  | nil => rfl
  | cons r regs ih => exact (transactAll_cons (transact_writeReg r.1 r.2 hs)).trans (ih hs)

/-- Every register holds the last value preloaded into it, or what it held. -/
theorem State.preload_reg (s : State) (regs : List (RegIx × Byte)) (i : RegIx) :
    (s.preload regs).reg i = regs.foldl (fun v r => if i = r.1 then r.2 else v) (s.reg i) := by
  induction regs generalizing s with
  | nil => rfl
  | cons r regs ih => rw [State.preload_cons, ih, State.reg_setReg, List.foldl_cons]

theorem State.SameButRegs.trans {s t u : State} (hst : s.SameButRegs t) (htu : t.SameButRegs u) : s.SameButRegs u := by
  obtain ⟨hbytes, hmem, hip, hstatus, hfault, hparams⟩ := hst
  obtain ⟨hbytes', hmem', hip', hstatus', hfault', hparams'⟩ := htu
  exact ⟨fun a => (hbytes' a).trans (hbytes a), hmem'.trans hmem, hip'.trans hip, hstatus'.trans hstatus,
    hfault'.trans hfault, hparams'.trans hparams⟩

theorem State.sameButRegs_preload (s : State) (regs : List (RegIx × Byte)) : s.SameButRegs (s.preload regs) := by
  induction regs generalizing s with
  | nil => exact ⟨fun _ => rfl, rfl, rfl, rfl, rfl, rfl⟩
  | cons r regs ih => exact (s.sameButRegs_setReg r.1 r.2).trans (ih _)

/-! The boot sequence (R152, R161). -/

/-- A core just booted with an image at `a`, the pointer `ip` and registers preloaded: reset, loaded, preloaded. -/
def State.booted (p : Params) (a : Nat) (ws : List Word) (ip : Word) (regs : List (RegIx × Byte)) : State :=
  State.preload { (State.resetUnder p).load a ws with ip := ip } regs

theorem State.booted_sameButRegs (p : Params) (a : Nat) (ws : List Word) (ip : Word) (regs : List (RegIx × Byte)) :
    State.SameButRegs { (State.resetUnder p).load a ws with ip := ip } (State.booted p a ws ip regs) :=
  State.sameButRegs_preload _ regs

theorem State.booted_lpRegs (p : Params) (a : Nat) (ws : List Word) (ip : Word) (regs : List (RegIx × Byte)) :
    (State.booted p a ws ip regs).LpRegs fun i => regs.foldl (fun v r => if i = r.1 then r.2 else v) 0 := by
  intro i
  have hreset : State.reg { (State.resetUnder p).load a ws with ip := ip } i = 0 := State.resetUnder_reg p i
  rw [State.booted, State.preload_reg, hreset]

theorem transactAll_bootMoves (s : Session) {a : Nat} {ws : List Word} (ip : Word) (regs : List (RegIx × Byte))
    (h : a + 2 * ws.length ≤ 4096) :
    transactAll (bootMoves a ws ip (regs.map fun r => (r.1.toNat, r.2))) s =
      .next { core := State.booted s.core.params a ws ip regs, started := false } := by
  rw [bootMoves, List.cons_append, transactAll_cons (transact_reset s), transactAll_append (transactAll_loadMoves rfl h),
    transactAll_cons (transact_setIp ip rfl), transactAll_preloadMoves rfl]
  rfl

/-- Settles O44: the premise on registers comes from the preload, all others from the load into a core just reset, which the
preload leaves as they are. -/
theorem bootMeetsLaunchPremises : Obligations.BootMeetsLaunchPremises := by
  intro s a ws ip regs h
  obtain ⟨-, hmem, hip, hr, hfault, -⟩ := State.booted_sameButRegs s.core.params a ws ip regs
  have hreset : (State.resetUnder s.core.params).mem.wf = true := rfl
  have himage : (State.booted s.core.params a ws ip regs).LpImage a ws := by
    intro k w hw
    rw [hmem]
    exact State.load_lpImage hreset h k w hw
  have hzero : (State.booted s.core.params a ws ip regs).LpZeroElsewhere a ws.length := by
    intro b hb
    rw [hmem]
    exact State.load_byteAt_ne hb
  have hconsistent : (State.booted s.core.params a ws ip regs).Consistent :=
    (State.consistent_of_running hr).mpr ⟨hmem ▸ State.load_mem_wf hreset h, hfault⟩
  exact ⟨_, transactAll_bootMoves s ip regs h, rfl, hr, congrArg FaultRecord.cause hfault, himage, hzero,
    congrArg BitVec.toNat hip, State.booted_lpRegs _ a ws ip regs, hconsistent, fun _ => hr⟩

end Sys2Proof.Machine
end
